-- ==== Sys2Proof/Word.lean ====
section
/-! DEFINITION. The value widths of the block (00_scope.md R13; 10_state.md R21, R22): bytes, 32-bit words, 64-bit
halves and 128-bit blocks, and the three tags of a key slot. No arithmetic is defined here: the views of a block are in
Sys2Proof/Machine/Block.lean. -/

namespace Sys2Proof

/-- One byte. -/
abbrev Byte := BitVec 8

/-- One 32-bit value: the command word CMD, a column of the AES state, a word of the key schedule. -/
abbrev Word32 := BitVec 32

/-- One 64-bit half of a block (20_memory.md R52). -/
abbrev Half := BitVec 64

/-- One 128-bit value: every data operand, result and round key (R9, R21). -/
abbrev Block := BitVec 128

/-- The tag of a key slot (10_state.md R22). -/
inductive Tag where
  | empty
  | aes128
  | aes256
  deriving DecidableEq, Repr

end Sys2Proof
end

