-- ==== Sys2Proof/Syntax.lean ====
section
/-! DEFINITION. The commands of the block, one constructor for each row of spec/opcode_table.json
(30_encoding.md R86). A command's data operands A and B are no part of its word: they are captured with it
(10_state.md R21) and stand in the state. -/

namespace Sys2Proof

/-- One command word's meaning. `slot` is SLOT and `idx` is IDX, zero-extended (30_encoding.md R82, R83). -/
inductive Instr where
  /-- OP 0x00 (45_control.md R230). -/
  | nop
  /-- OP 0x01 (45_control.md R231). -/
  | idread
  /-- OP 0x10 (40_clmul.md R114). -/
  | clmul
  /-- OP 0x20 (41_aes_round.md R140). -/
  | aesenc
  /-- OP 0x21 (41_aes_round.md R141). -/
  | aesenclast
  /-- OP 0x30 (42_key_schedule.md R170). -/
  | keyexp128 (slot : Nat)
  /-- OP 0x31 (42_key_schedule.md R171). -/
  | keyexp256 (slot : Nat)
  /-- OP 0x32 (42_key_schedule.md R172). -/
  | rkread (slot idx : Nat)
  /-- OP 0x40 (43_encrypt.md R194). -/
  | enc (slot : Nat)
  /-- OP 0x50 (44_hash.md R214). -/
  | crhash (slot : Nat)
  /-- OP 0x51 (44_hash.md R215). -/
  | ccrhash (slot : Nat)
  /-- OP 0x52 (44_hash.md R216). -/
  | tccrhash (slot : Nat)
  deriving DecidableEq, Repr

end Sys2Proof
end

