-- ==== Sys2Proof/WellFormed.lean ====
section
/-! DEFINITION. Which commands have a word: SLOT and IDX are unsigned 4-bit fields (30_encoding.md R82, R83). A slot
number within the field but beyond the slot file is well formed: the machine answers it with ERR_SLOT_RANGE. -/

namespace Sys2Proof

/-- SLOT, zero-extended, is 0 to 15 (30_encoding.md R82). -/
def slotFits (slot : Nat) : Bool := decide (slot < 16)

/-- IDX, zero-extended, is 0 to 15 (30_encoding.md R83). -/
def idxFits (idx : Nat) : Bool := decide (idx < 16)

/-- Every field of the command fits the bits R80 gives it. -/
def Instr.wellFormed : Instr → Bool
  | .nop => true
  | .idread => true
  | .clmul => true
  | .aesenc => true
  | .aesenclast => true
  | .keyexp128 slot => slotFits slot
  | .keyexp256 slot => slotFits slot
  | .rkread slot idx => slotFits slot && idxFits idx
  | .enc slot => slotFits slot
  | .crhash slot => slotFits slot
  | .ccrhash slot => slotFits slot
  | .tccrhash slot => slotFits slot

end Sys2Proof
end

