-- ==== Sys2Proof/Decode.lean ====
section
/-! DEFINITION. The command word (30_encoding.md): its fields (R80), the opcode map (R86), decoding in the order of
R87, and the encoder written from the same map. The decoder is total on every word and on every byte string; what is
no command is rejected by the name of the status the block answers with. -/

namespace Sys2Proof

/-- OP = CMD[7:0] (R81). -/
def opField (w : Word32) : Byte := w.extractLsb' 0 8

/-- SLOT = CMD[11:8], zero-extended (R82). -/
def slotField (w : Word32) : Nat := (w.extractLsb' 8 4).toNat

/-- IDX = CMD[15:12], zero-extended (R83). -/
def idxField (w : Word32) : Nat := (w.extractLsb' 12 4).toNat

/-- RSV = CMD[31:16] (R84). -/
def rsvField (w : Word32) : BitVec 16 := w.extractLsb' 16 16

/-- Why a word is no command (R88). -/
inductive DecodeError where
  /-- OP is not in the opcode map: the block answers ERR_ILLEGAL_OPCODE (60_exceptions.md R252). -/
  | illegalOpcode
  /-- RSV, or a SLOT or IDX the command does not use, is nonzero: the block answers ERR_RESERVED_FIELD (R253). -/
  | reservedField
  deriving DecidableEq, Repr

/-- Why a byte string begins with no command. -/
inductive BytesError where
  /-- Fewer than four bytes: no whole command word is there (20_memory.md R58). -/
  | truncated
  /-- The first four bytes are a word that is no command. -/
  | noCommand (e : DecodeError)
  deriving DecidableEq, Repr

/-- One row of the opcode map: OP, which fields the command uses (R85), and the command its fields make. -/
structure OpcodeRow where
  op : Byte
  usesSlot : Bool
  usesIdx : Bool
  make : Nat → Nat → Instr

/-- The opcode map (R86) with the SLOT and IDX columns of R85. -/
def opcodeMap : List OpcodeRow :=
  [ ⟨0x00, false, false, fun _ _ => .nop⟩,
    ⟨0x01, false, false, fun _ _ => .idread⟩,
    ⟨0x10, false, false, fun _ _ => .clmul⟩,
    ⟨0x20, false, false, fun _ _ => .aesenc⟩,
    ⟨0x21, false, false, fun _ _ => .aesenclast⟩,
    ⟨0x30, true, false, fun s _ => .keyexp128 s⟩,
    ⟨0x31, true, false, fun s _ => .keyexp256 s⟩,
    ⟨0x32, true, true, fun s r => .rkread s r⟩,
    ⟨0x40, true, false, fun s _ => .enc s⟩,
    ⟨0x50, true, false, fun s _ => .crhash s⟩,
    ⟨0x51, true, false, fun s _ => .ccrhash s⟩,
    ⟨0x52, true, false, fun s _ => .tccrhash s⟩ ]

/-- The row of an OP value, if it has one (R81). -/
def opcodeRow (op : Byte) : Option OpcodeRow := opcodeMap.find? (fun row => row.op == op)

/-- Whether an OP value is one of the twelve (R86, R88). -/
def legalOpcode (op : Byte) : Bool := (opcodeRow op).isSome

/-- Decoding a command word, its checks in the order of R87. -/
def decodeWord (w : Word32) : Except DecodeError Instr :=
  match opcodeRow (opField w) with
  | none => .error .illegalOpcode
  | some row =>
    if rsvField w ≠ 0 then .error .reservedField
    else if row.usesSlot = false ∧ slotField w ≠ 0 then .error .reservedField
    else if row.usesIdx = false ∧ idxField w ≠ 0 then .error .reservedField
    else .ok (row.make (slotField w) (idxField w))

/-- The OP byte of a command (R86). -/
def Instr.opcode : Instr → Byte
  | .nop => 0x00
  | .idread => 0x01
  | .clmul => 0x10
  | .aesenc => 0x20
  | .aesenclast => 0x21
  | .keyexp128 _ => 0x30
  | .keyexp256 _ => 0x31
  | .rkread _ _ => 0x32
  | .enc _ => 0x40
  | .crhash _ => 0x50
  | .ccrhash _ => 0x51
  | .tccrhash _ => 0x52

/-- The SLOT field of a command, 0 where it uses none (R85). -/
def Instr.slotOf : Instr → Nat
  | .nop => 0
  | .idread => 0
  | .clmul => 0
  | .aesenc => 0
  | .aesenclast => 0
  | .keyexp128 slot => slot
  | .keyexp256 slot => slot
  | .rkread slot _ => slot
  | .enc slot => slot
  | .crhash slot => slot
  | .ccrhash slot => slot
  | .tccrhash slot => slot

/-- The IDX field of a command, 0 where it uses none (R85). -/
def Instr.idxOf : Instr → Nat
  | .nop => 0
  | .idread => 0
  | .clmul => 0
  | .aesenc => 0
  | .aesenclast => 0
  | .keyexp128 _ => 0
  | .keyexp256 _ => 0
  | .rkread _ idx => idx
  | .enc _ => 0
  | .crhash _ => 0
  | .ccrhash _ => 0
  | .tccrhash _ => 0

/-- The word with the given OP, SLOT and IDX and RSV = 0: `OP | (n << 8) | (r << 12)` (R91, R93). -/
def commandWord (op : Byte) (slot idx : Nat) : Word32 :=
  op.setWidth 32 ||| (BitVec.ofNat 32 slot <<< 8) ||| (BitVec.ofNat 32 idx <<< 12)

/-- The command word of a command (R80, R86, R93). -/
def encode (i : Instr) : Word32 := commandWord i.opcode i.slotOf i.idxOf

/-- A command word carried as four bytes, byte 0 = CMD[7:0] first (20_memory.md R53). -/
def bytesOfWord (w : Word32) : List Byte :=
  [w.extractLsb' 0 8, w.extractLsb' 8 8, w.extractLsb' 16 8, w.extractLsb' 24 8]

/-- The command word in the first four bytes of a byte string, and the bytes after it (R53). -/
def wordOfBytes : List Byte → Option (Word32 × List Byte)
  | b0 :: b1 :: b2 :: b3 :: rest => some (b3 ++ b2 ++ b1 ++ b0, rest)
  | _ => none

/-- Decoding from bytes: every command word is exactly four bytes (R53, R89), so no length is determined. -/
def decodeBytes (bytes : List Byte) : Except BytesError (Instr × List Byte) :=
  match wordOfBytes bytes with
  | none => .error .truncated
  | some (w, rest) =>
    match decodeWord w with
    | .ok i => .ok (i, rest)
    | .error e => .error (.noCommand e)

/-- The bytes of a command's word, as they are carried (R53). -/
def encodeBytes (i : Instr) : List Byte := bytesOfWord (encode i)

/-- The command the decoder reads from a word given as spec/opcode_table.json numbers its bits: the low `nbits` bits
are `w`, every bit above them is 0. -/
def decodeTableWord (nbits w : Nat) : Option Instr :=
  match decodeBytes (bytesOfWord (BitVec.ofNat 32 (w % 2 ^ nbits))) with
  | .ok (i, _) => some i
  | .error _ => none

end Sys2Proof
end

