-- ==== Sys2Proof/Machine/Block.lean ====
section
/-! DEFINITION. The views of a 128-bit value (00_scope.md R14; 20_memory.md R50 to R53): bytes, 16-bit and 32-bit
elements, halves, and the flat byte sequence. All are little-endian: element 0 is the least significant. -/

namespace Sys2Proof.Machine

/-- `B(v, i) = v[8i+7 : 8i]` (R14, R50). -/
def byteOf (v : Block) (i : Nat) : Byte := v.extractLsb' (8 * i) 8

/-- The 16-bit element j, `v[16j+15 : 16j]` (R51). -/
def elem16 (v : Block) (j : Nat) : BitVec 16 := v.extractLsb' (16 * j) 16

/-- `W(v, j) = v[32j+31 : 32j]` (R14, R51). -/
def wordOf (v : Block) (j : Nat) : Word32 := v.extractLsb' (32 * j) 32

/-- The 64-bit element j, `v[64j+63 : 64j]` (R51). -/
def elem64 (v : Block) (j : Nat) : Half := v.extractLsb' (64 * j) 64

/-- `lo(v) = v[63:0]` (R14, R52). -/
def lo (v : Block) : Half := v.extractLsb' 0 64

/-- `hi(v) = v[127:64]` (R14, R52). -/
def hi (v : Block) : Half := v.extractLsb' 64 64

/-- `mk128(h, l)`: the value with `hi = h` and `lo = l` (R14). -/
def mk128 (h l : Half) : Block := h ++ l

/-- `frombytes(b0, ..., b15)`, the bytes given as a function of their index (R14). -/
def fromBytes (b : Nat → Byte) : Block :=
  b 15 ++ b 14 ++ b 13 ++ b 12 ++ b 11 ++ b 10 ++ b 9 ++ b 8 ++
    b 7 ++ b 6 ++ b 5 ++ b 4 ++ b 3 ++ b 2 ++ b 1 ++ b 0

/-- The value with the 32-bit elements w0 to w3 (R51). -/
def fromWords (w0 w1 w2 w3 : Word32) : Block := w3 ++ w2 ++ w1 ++ w0

/-- Byte k of a 32-bit word, byte 0 the least significant: a_k of the byte form `[a0, a1, a2, a3]` (R51, R55). -/
def wordByte (w : Word32) (k : Nat) : Byte := w.extractLsb' (8 * k) 8

/-- The word with the byte form `[a0, a1, a2, a3]` (R55). -/
def wordFromBytes (a0 a1 a2 a3 : Byte) : Word32 := a3 ++ a2 ++ a1 ++ a0

/-- A block as the flat 16-byte sequence that crosses a byte-wide transport, byte 0 first (R53). -/
def blockToBytes (v : Block) : List Byte := (List.range 16).map (byteOf v)

/-- The block a flat 16-byte sequence carries (R53); a sequence of another length carries none (R58). -/
def blockOfBytes (bytes : List Byte) : Option Block :=
  if bytes.length = 16 then some (fromBytes (fun i => bytes.getD i 0)) else none

end Sys2Proof.Machine
end

