-- ==== Sys2Proof/Config.lean ====
section
/-! DEFINITION. What one implementation of the block fixes, and the values the spec leaves OPEN (92_eei_decisions.md,
"Named parameters left open"). Every constant here is opaque: nothing in Lean can evaluate it, so a claim holds for
every value of it. PLATFORM_MAP (20_memory.md R60) lies outside the block and no rule reads it, so it has no constant. -/

namespace Sys2Proof.Config

/-- How many slots beyond two the key slot file has, 0 to 14: parameter NKS lies in 2..16 (00_scope.md R10). Log entry 1. -/
opaque nksAboveTwo : Fin 15

/-- Parameter NKS, the number of key slots (R10). Read only by `State.reset`. -/
def nks : Nat := nksAboveTwo.val + 2

/-- Parameter FIXED_RK[0..10], the round keys of FIXED_KEY_AES128 (R11). No conformity to Expand128 is assumed.
Read only by `State.reset`. Log entry 1. -/
opaque fixedRk : Vector Block 11

/-- Parameter LAT of a command that completes with status OK (R12): cycles from acceptance to response, for the OP byte
and the tag of the slot the SLOT field names. It is given neither the operands nor a round key (70_reset_and_hazards.md
R291). A free value, log entry 2. -/
opaque latency (op : Byte) (named : Tag) : Nat

/-- Cycles to an error response: it depends on CMD and on slot tags only (R291). A free value, log entry 2. -/
opaque latencyError (cmd : Word32) (tags : List Tag) : Nat

/-- Parameter ARBITRATION (20_memory.md R63): the platform's choice at the n-th acceptance, used only where more than
one requester has a command waiting. A free value, log entry 3. -/
opaque arbitration (n : Nat) : Nat

end Sys2Proof.Config
end

