-- ==== Sys2Proof/Machine/State.lean ====
section
/-! DEFINITION. The state of the block and of its command port, as plain data (10_state.md, 20_memory.md section 5),
and the state after reset (R31). The block has no register, program counter, flag or memory (R20, R28, R60), so State
has none. Stored once and computed elsewhere: NKS is the length of the slot file, KS[0] and IDR are computed
(Sys2Proof/Machine/Ops.lean). -/

namespace Sys2Proof.Machine

/-- One key slot: a tag and fifteen round keys (10_state.md R22). -/
structure Slot where
  tag : Tag
  rk : Vector Block 15
  deriving DecidableEq, Repr

/-- The EMPTY slot: every round key 0 (R22, R31). -/
def Slot.emptySlot : Slot := ⟨.empty, Vector.replicate 15 0⟩

/-- What a requester presents: the command word and the two data operands (R21). -/
structure Command where
  cmd : Word32
  a : Block
  b : Block
  deriving DecidableEq, Repr

/-- A transaction in progress: the captured CMD, A and B (70_reset_and_hazards.md R285), and the requester whose
command it is (20_memory.md R63), which no command reads. -/
structure Txn where
  requester : Nat
  command : Command
  deriving DecidableEq, Repr

/-- The eight status codes (60_exceptions.md R250). Values 0x08 to 0xFF are never returned. -/
inductive Status where
  /-- 0x00: the command completed as its rule says. -/
  | ok
  /-- 0x01 (R252). -/
  | illegalOpcode
  /-- 0x02 (R253). -/
  | reservedField
  /-- 0x03 (R255). -/
  | slotRange
  /-- 0x04 (R254). -/
  | slotReadonly
  /-- 0x05 (R256). -/
  | slotEmpty
  /-- 0x06 (R257). -/
  | slotVariant
  /-- 0x07 (R258). -/
  | indexRange
  deriving DecidableEq, Repr

/-- What the block returns: ST, R0 and R1 (R21), to the requester whose command it answers (R63). -/
structure Response where
  requester : Nat
  st : Status
  r0 : Block
  r1 : Block
  deriving DecidableEq, Repr

/-- The platform's reset input as the next step finds it (70_reset_and_hazards.md R280, R281). -/
inductive ResetLine where
  /-- Not asserted. -/
  | released
  /-- Asserted while no command is in progress (R280). -/
  | betweenCommands
  /-- Asserted while the next command is in progress: that command is abandoned (R281). -/
  | duringCommand
  deriving DecidableEq, Repr

/-- The machine between two steps. -/
structure State where
  /-- FIXED_RK[0..10], from which KS[0] is read; no operation writes it (R11, R23). -/
  fixedRk : Vector Block 11
  /-- KS[1 .. NKS-1], the loadable slots; NKS is its length plus one (R10, R24). -/
  loadable : List Slot
  /-- For each requester the commands it has issued and the block has not accepted, oldest first (R63, R286). -/
  requesters : List (List Command)
  /-- The reset input (R280, R281). -/
  resetLine : ResetLine
  /-- The transaction in progress; none between commands (R20, R31). -/
  txn : Option Txn
  /-- The response the last step returned; none where it returned none (R28, R31). -/
  response : Option Response
  /-- The model's own: how many commands have been accepted, read by the free value ARBITRATION only (log entry 3). -/
  grants : Nat
  /-- The model's own ghost clock: the sum of LAT over the completed commands, read by no command (log entry 2). -/
  busyCycles : Nat
  deriving DecidableEq, Repr

/-- Nothing faults: no command can hang the block or stop it (60_exceptions.md R273), so no reason exists and nothing
raises one. -/
inductive Fault where
  deriving DecidableEq, Repr

/-- Why a step has no meaning. -/
inductive Refusal where
  /-- Raised by an arm of `exec` whose instruction has no meaning yet; no arm is left that does. Safe. -/
  | notModelled (mnemonic : String)
  deriving DecidableEq, Repr

/-- The machine right after reset (R31, R280): every loadable slot EMPTY, FIXED_RK as the implementation has it, no
transaction and no response; no requester has presented a command (log entry 4), the reset input released (log
entry 5), the model's own counters 0 (log entries 2 and 3). -/
def State.reset : State where
  fixedRk := Config.fixedRk
  loadable := List.replicate (Config.nks - 1) Slot.emptySlot
  requesters := []
  resetLine := .released
  txn := none
  response := none
  grants := 0
  busyCycles := 0

end Sys2Proof.Machine
end

