-- ==== Sys2Proof/Machine/Flags.lean ====
section
/-! DEFINITION. The block has no condition flags (10_state.md R20); what a command reports is its 8-bit status code.
Here: the code of each status (60_exceptions.md R250) and which command can return which status (R260). -/

namespace Sys2Proof.Machine

/-- The 8-bit value of ST (R250). -/
def Status.code : Status → Byte
  | .ok => 0x00
  | .illegalOpcode => 0x01
  | .reservedField => 0x02
  | .slotRange => 0x03
  | .slotReadonly => 0x04
  | .slotEmpty => 0x05
  | .slotVariant => 0x06
  | .indexRange => 0x07

/-- The position of an error in the priority order of R259; OK, which is no error, comes after every error. -/
def Status.priority : Status → Nat
  | .illegalOpcode => 1
  | .reservedField => 2
  | .slotRange => 3
  | .slotReadonly => 4
  | .slotEmpty => 5
  | .slotVariant => 6
  | .indexRange => 7
  | .ok => 8

/-- The statuses a decoded command can return: R260 without ERR_RESERVED_FIELD, which the decoder raises before a
command is known. -/
def possibleStatus : Instr → List Status
  | .nop => [.ok]
  | .idread => [.ok]
  | .clmul => [.ok]
  | .aesenc => [.ok]
  | .aesenclast => [.ok]
  | .keyexp128 _ => [.ok, .slotRange, .slotReadonly]
  | .keyexp256 _ => [.ok, .slotRange, .slotReadonly]
  | .rkread _ _ => [.ok, .slotRange, .slotEmpty, .indexRange]
  | .enc _ => [.ok, .slotRange, .slotEmpty]
  | .crhash _ => [.ok, .slotRange, .slotEmpty, .slotVariant]
  | .ccrhash _ => [.ok, .slotRange, .slotEmpty, .slotVariant]
  | .tccrhash _ => [.ok, .slotRange, .slotEmpty, .slotVariant]

end Sys2Proof.Machine
end

