-- ==== Sys2Proof/Machine/Ops.lean ====
section
/-! DEFINITION. The operations every command is built from: reading and writing a key slot (10_state.md R22 to R24),
IDR (R27), what a command asks for (00_scope.md R16: respond, raise, a slot write) and how that completes the
transaction in one step (20_memory.md R57), accepting a command at the port (R62, R63), and the reset event
(70_reset_and_hazards.md R280, R281). `raise` is the one way an error is taken (60_exceptions.md R251); there is no trap
to enter and none to return from (R263, R264). -/

namespace Sys2Proof.Machine

/-! ## Key slots -/

/-- The slot that holds an AES-128 schedule: rk[11..14] are 0 (R22, 42_key_schedule.md R170). -/
def Slot.ofAes128 (rk : Vector Block 11) : Slot := ⟨.aes128, rk ++ Vector.replicate 4 (0 : Block)⟩

/-- The slot that holds an AES-256 schedule (R22, 42_key_schedule.md R171). -/
def Slot.ofAes256 (rk : Vector Block 15) : Slot := ⟨.aes256, rk⟩

/-- `rk[0..10]` of a slot (R22). -/
def Slot.keys128 (e : Slot) : Vector Block 11 := Vector.ofFn (fun i : Fin 11 => e.rk[i.val])

/-- `rk[r]` of a slot; there are fifteen (R22). -/
def Slot.key (e : Slot) (r : Nat) : Block := (e.rk[r]?).getD 0

/-- NKS, the number of slots of the slot file (R10, R22). -/
def State.nks (s : State) : Nat := s.loadable.length + 1

/-- `KS[n]`. Slot 0 is hardwired to FIXED_RK (R23); a number beyond the slot file names nothing and reads EMPTY, which
no command sees, since it is answered with ERR_SLOT_RANGE first. -/
def State.slot (s : State) : Nat → Slot
  | 0 => Slot.ofAes128 s.fixedRk
  | n + 1 => s.loadable.getD n Slot.emptySlot

/-- `KS[n] <- e`: the whole slot at once (R24, R57). Slot 0 discards the write (R23). -/
def State.setSlot (s : State) (n : Nat) (e : Slot) : State :=
  match n with
  | 0 => s
  | m + 1 => { s with loadable := s.loadable.set m e }

/-- The tags of all slots, slot 0 first (R22). -/
def State.tags (s : State) : List Tag := (List.range s.nks).map (fun n => (s.slot n).tag)

/-! ## The identification register -/

/-- IDR.VERSION (R27). -/
def idrVersion : Block := 0x01

/-- The seven feature bits, IDR[14:8]: F_AES128, F_AES256, F_AESRND, F_CLMUL, F_HASH, F_RKREAD, F_CT, each 1 (R3, R27). -/
def idrFeatures : Block :=
  (1 <<< 8) ||| (1 <<< 9) ||| (1 <<< 10) ||| (1 <<< 11) ||| (1 <<< 12) ||| (1 <<< 13) ||| (1 <<< 14)

/-- The identification register: VERSION, the feature bits and NKS in bits [20:16]; every other bit reads 0 (R27). -/
def State.idr (s : State) : Block := idrVersion ||| idrFeatures ||| ((BitVec.ofNat 5 s.nks).setWidth 128 <<< 16)

/-! ## What a command asks for -/

/-- What a command's rule ends in: the status, the two results and at most one slot write (R16, R57). -/
structure Effect where
  status : Status
  r0 : Block
  r1 : Block
  write : Option (Nat × Slot)
  deriving DecidableEq, Repr

/-- `respond(r0, r1)` (R16). -/
def respond (r0 r1 : Block) : Effect := ⟨.ok, r0, r1, none⟩

/-- `raise E`: R0 = R1 = 0 and nothing written (R16, 60_exceptions.md R251). -/
def raise (e : Status) : Effect := ⟨e, 0, 0, none⟩

/-- `KS[n] <- e` and then `respond(0, 0)` (42_key_schedule.md R170, R171). -/
def loadSlot (n : Nat) (e : Slot) : Effect := ⟨.ok, 0, 0, some (n, e)⟩

/-! ## Completing a transaction -/

/-- The slot write of an effect, if it has one. -/
def State.commit (s : State) : Option (Nat × Slot) → State
  | none => s
  | some (n, e) => s.setSlot n e

/-- LAT of the command in progress (R12, R290, R291): for a completed command by its OP and the tag of the slot SLOT
names, for an error by CMD and the slot tags. -/
def State.latencyOf (s : State) (cmd : Word32) : Status → Nat
  | .ok => Config.latency (opField cmd) (s.slot (slotField cmd)).tag
  | _ => Config.latencyError cmd s.tags

/-- The transaction `t` completes with the effect `e`: the slot is written, the response returned to the requester, and
nothing else of the transaction stays (R20, R28, R57). -/
def State.finish (s : State) (t : Txn) (e : Effect) : State :=
  { s.commit e.write with
    txn := none
    response := some ⟨t.requester, e.status, e.r0, e.r1⟩
    busyCycles := s.busyCycles + s.latencyOf t.command.cmd e.status }

/-- A command's meaning, from what its rule asks for with the captured operands (R285). With no transaction in progress
nothing happens; a step never finds none here. -/
def State.runCommand (s : State) (rule : Command → Effect) : Host.Outcome State Fault Refusal :=
  match s.txn with
  | none => .next s
  | some t => .next (s.finish t (rule t.command))

/-- The status a word that is no command is answered with (R252, R253). -/
def errorOfWord : DecodeError → Status
  | .illegalOpcode => .illegalOpcode
  | .reservedField => .reservedField

/-- The block's answer to a word that is no command (30_encoding.md R87, R88). -/
def rejectWord (e : DecodeError) (s : State) : Host.Outcome State Fault Refusal :=
  s.runCommand (fun _ => raise (errorOfWord e))

/-! ## The command port -/

/-- The commands requester k has waiting, oldest first; a number that is no requester has none. -/
def State.queue (s : State) (k : Nat) : List Command := s.requesters.getD k []

/-- The requesters with a command waiting, by number. -/
def State.waiting (s : State) : List Nat :=
  (List.range s.requesters.length).filter (fun k => !(s.queue k).isEmpty)

/-- ARBITRATION (20_memory.md R63): which waiting requester's command is accepted next. Where several wait, the free
value chooses. -/
def State.granted (s : State) : Option Nat :=
  match s.waiting with
  | [] => none
  | [k] => some k
  | ks => some (ks.getD (Config.arbitration s.grants % ks.length) 0)

/-- The state in which requester k's command c has just been accepted and `rest` still waits behind it: CMD, A and B
are captured (R285), and the requester's later commands keep their order (R63, R286). -/
def State.accepting (s : State) (k : Nat) (c : Command) (rest : List Command) : State :=
  { s with
    requesters := s.requesters.set k rest
    txn := some ⟨k, c⟩
    response := none
    grants := s.grants + 1 }

/-- Accepting the oldest waiting command of requester k (R63). -/
def State.acceptFrom (s : State) (k : Nat) : Option (Txn × State) :=
  match s.queue k with
  | [] => none
  | c :: rest => some (⟨k, c⟩, s.accepting k c rest)

/-- Accepting the next command, the platform's arbitration choosing the requester (R62, R63). -/
def State.accept (s : State) : Option (Txn × State) :=
  match s.granted with
  | none => none
  | some k => s.acceptFrom k

/-- No command is presented: the port is idle and nothing happens (45_control.md R230; R28). -/
def State.idle (s : State) : State := { s with txn := none, response := none }

/-- A requester presents a command, which waits behind its earlier ones (R63, R286): an input from outside. Any number
of requesters may share the port. -/
def State.present (s : State) (k : Nat) (c : Command) : State :=
  { s with
    requesters := (s.requesters ++ List.replicate (k + 1 - s.requesters.length) []).set k (s.queue k ++ [c]) }

/-- The platform asserts the reset input, between commands or during the next one (R280, R281): an input from
outside. -/
def State.assertReset (s : State) (duringCommand : Bool) : State :=
  { s with resetLine := if duringCommand then .duringCommand else .betweenCommands }

/-! ## Reset -/

/-- The reset event (R31, R280): every loadable slot EMPTY, slot 0, IDR and NKS unchanged, no transaction and no
response. Commands not yet accepted keep waiting (R286). The reset input is released again. -/
def State.resetEvent (s : State) : State :=
  { s with
    loadable := List.replicate s.loadable.length Slot.emptySlot
    resetLine := .released
    txn := none
    response := none }

/-- The reset event during a command (R281): the command just accepted is abandoned with no response, and the rest is
the reset event, whatever the command was. -/
def State.abandonAndReset (s : State) : State :=
  match s.accept with
  | none => s.resetEvent
  | some (_, s') => s'.resetEvent

end Sys2Proof.Machine
end

