-- ==== Sys2Proof/Machine/Operands.lean ====
section
/-! DEFINITION. The operand forms. A and B are whole 128-bit values captured with the command (30_encoding.md R90); the
SLOT operand has four forms, by the checks a command makes of it, each in the priority of 60_exceptions.md R259. -/

namespace Sys2Proof.Machine

/-- A SLOT operand that must name a slot of the file: ERR_SLOT_RANGE where SLOT >= NKS (R255). -/
def withSlot (s : State) (n : Nat) (rule : Effect) : Effect :=
  if s.nks ≤ n then raise .slotRange else rule

/-- A SLOT operand that is written: in range and not slot 0, else ERR_SLOT_READONLY (R254, R255). -/
def withLoadable (s : State) (n : Nat) (rule : Effect) : Effect :=
  withSlot s n (if n = 0 then raise .slotReadonly else rule)

/-- A SLOT operand whose schedule is read: in range and loaded, else ERR_SLOT_EMPTY (R255, R256). -/
def withSchedule (s : State) (n : Nat) (rule : Slot → Effect) : Effect :=
  withSlot s n (if (s.slot n).tag = .empty then raise .slotEmpty else rule (s.slot n))

/-- A SLOT operand whose AES-128 schedule is read, as the hash commands do: any other loaded variant is
ERR_SLOT_VARIANT (R255, R256, R257). -/
def withSchedule128 (s : State) (n : Nat) (rule : Vector Block 11 → Effect) : Effect :=
  withSchedule s n (fun e => if e.tag = .aes128 then rule e.keys128 else raise .slotVariant)

/-- Whether a command reads operand A (30_encoding.md R85). -/
def readsA : Instr → Bool
  | .nop => false
  | .idread => false
  | .clmul => true
  | .aesenc => true
  | .aesenclast => true
  | .keyexp128 _ => true
  | .keyexp256 _ => true
  | .rkread _ _ => false
  | .enc _ => true
  | .crhash _ => true
  | .ccrhash _ => true
  | .tccrhash _ => true

/-- Whether a command reads operand B (30_encoding.md R85). -/
def readsB : Instr → Bool
  | .nop => false
  | .idread => false
  | .clmul => true
  | .aesenc => true
  | .aesenclast => true
  | .keyexp128 _ => false
  | .keyexp256 _ => true
  | .rkread _ _ => false
  | .enc _ => false
  | .crhash _ => false
  | .ccrhash _ => false
  | .tccrhash _ => true

/-- Whether a command may write a key slot (10_state.md R25). -/
def writesSlot : Instr → Bool
  | .nop => false
  | .idread => false
  | .clmul => false
  | .aesenc => false
  | .aesenclast => false
  | .keyexp128 _ => true
  | .keyexp256 _ => true
  | .rkread _ _ => false
  | .enc _ => false
  | .crhash _ => false
  | .ccrhash _ => false
  | .tccrhash _ => false

end Sys2Proof.Machine
end

