-- ==== Sys2Proof/Machine/Clmul.lean ====
section
/-! DEFINITION. The carryless multiplier (40_clmul.md). -/

namespace Sys2Proof.Machine

/-- `CLMUL64(a, b)`: the XOR over the bits j of b that are 1 of a shifted left by j (R111). -/
def clmul64 (a b : Half) : Block :=
  (List.range 64).foldl (fun acc j => if b.getLsbD j then acc ^^^ (a.setWidth 128 <<< j) else acc) 0

/-- `CLMUL128(a, b)` as the pair (low, high), from the four cross products of the halves (R112). -/
def clmul128 (a b : Block) : Block × Block :=
  let pll := clmul64 (lo a) (lo b)
  let phh := clmul64 (hi a) (hi b)
  let m := clmul64 (lo a) (hi b) ^^^ clmul64 (hi a) (lo b)
  (pll ^^^ mk128 (lo m) 0, phh ^^^ mk128 0 (hi m))

/-- The naive reference product of 256 bits (R115), which the block must match. -/
def clmulReference (a b : Block) : BitVec 256 :=
  (List.range 128).foldl (fun acc j => if b.getLsbD j then acc ^^^ (a.setWidth 256 <<< j) else acc) 0

/-- CLMUL: R0 is the low half of the product, R1 the high half (R114). -/
def execClmul (s : State) : Host.Outcome State Fault Refusal :=
  s.runCommand (fun c => respond (clmul128 c.a c.b).1 (clmul128 c.a c.b).2)

end Sys2Proof.Machine
end

