-- ==== Sys2Proof/Machine/Control.lean ====
section
/-! DEFINITION. The control commands (45_control.md). -/

namespace Sys2Proof.Machine

/-- NOP: respond(0, 0) (R230). -/
def execNop (s : State) : Host.Outcome State Fault Refusal :=
  s.runCommand (fun _ => respond 0 0)

/-- IDREAD: respond(IDR, 0) (R231). -/
def execIdread (s : State) : Host.Outcome State Fault Refusal :=
  s.runCommand (fun _ => respond s.idr 0)

end Sys2Proof.Machine
end

