-- ==== Sys2Proof/Machine/Aes.lean ====
section
/-! DEFINITION. The AES round function and final round (41_aes_round.md): the byte field, the S-box, the four round
transformations and the commands AESENC and AESENCLAST. The block has no inverse of any of them (R142). -/

namespace Sys2Proof.Machine

/-! ## The byte field -/

/-- Multiplication by x modulo 0x11B (R131). -/
def xtime (b : Byte) : Byte := (b <<< 1) ^^^ (if b.getLsbD 7 then 0x1B else 0x00)

/-- `mul2` (R131). -/
def mul2 (b : Byte) : Byte := xtime b

/-- `mul3` (R131). -/
def mul3 (b : Byte) : Byte := xtime b ^^^ b

/-- `b * x^n` in the byte field (R130, R131). -/
def xtimes (b : Byte) : Nat → Byte
  | 0 => b
  | n + 1 => xtime (xtimes b n)

/-- The product of two bytes in the field (R130): the XOR over the bits i of b that are 1 of `a * x^i`. -/
def gfMul (a b : Byte) : Byte :=
  (List.range 8).foldl (fun acc i => if b.getLsbD i then acc ^^^ xtimes a i else acc) 0

/-! ## The S-box -/

/-- The S-box table (R132), rows 0x to 3x: row = high hex digit of the byte, column = low hex digit. -/
def sboxRows0 : List (List Byte) :=
  [ [0x63, 0x7C, 0x77, 0x7B, 0xF2, 0x6B, 0x6F, 0xC5, 0x30, 0x01, 0x67, 0x2B, 0xFE, 0xD7, 0xAB, 0x76],
    [0xCA, 0x82, 0xC9, 0x7D, 0xFA, 0x59, 0x47, 0xF0, 0xAD, 0xD4, 0xA2, 0xAF, 0x9C, 0xA4, 0x72, 0xC0],
    [0xB7, 0xFD, 0x93, 0x26, 0x36, 0x3F, 0xF7, 0xCC, 0x34, 0xA5, 0xE5, 0xF1, 0x71, 0xD8, 0x31, 0x15],
    [0x04, 0xC7, 0x23, 0xC3, 0x18, 0x96, 0x05, 0x9A, 0x07, 0x12, 0x80, 0xE2, 0xEB, 0x27, 0xB2, 0x75] ]

/-- The S-box table (R132), rows 4x to 7x. -/
def sboxRows1 : List (List Byte) :=
  [ [0x09, 0x83, 0x2C, 0x1A, 0x1B, 0x6E, 0x5A, 0xA0, 0x52, 0x3B, 0xD6, 0xB3, 0x29, 0xE3, 0x2F, 0x84],
    [0x53, 0xD1, 0x00, 0xED, 0x20, 0xFC, 0xB1, 0x5B, 0x6A, 0xCB, 0xBE, 0x39, 0x4A, 0x4C, 0x58, 0xCF],
    [0xD0, 0xEF, 0xAA, 0xFB, 0x43, 0x4D, 0x33, 0x85, 0x45, 0xF9, 0x02, 0x7F, 0x50, 0x3C, 0x9F, 0xA8],
    [0x51, 0xA3, 0x40, 0x8F, 0x92, 0x9D, 0x38, 0xF5, 0xBC, 0xB6, 0xDA, 0x21, 0x10, 0xFF, 0xF3, 0xD2] ]

/-- The S-box table (R132), rows 8x to Bx. -/
def sboxRows2 : List (List Byte) :=
  [ [0xCD, 0x0C, 0x13, 0xEC, 0x5F, 0x97, 0x44, 0x17, 0xC4, 0xA7, 0x7E, 0x3D, 0x64, 0x5D, 0x19, 0x73],
    [0x60, 0x81, 0x4F, 0xDC, 0x22, 0x2A, 0x90, 0x88, 0x46, 0xEE, 0xB8, 0x14, 0xDE, 0x5E, 0x0B, 0xDB],
    [0xE0, 0x32, 0x3A, 0x0A, 0x49, 0x06, 0x24, 0x5C, 0xC2, 0xD3, 0xAC, 0x62, 0x91, 0x95, 0xE4, 0x79],
    [0xE7, 0xC8, 0x37, 0x6D, 0x8D, 0xD5, 0x4E, 0xA9, 0x6C, 0x56, 0xF4, 0xEA, 0x65, 0x7A, 0xAE, 0x08] ]

/-- The S-box table (R132), rows Cx to Fx. -/
def sboxRows3 : List (List Byte) :=
  [ [0xBA, 0x78, 0x25, 0x2E, 0x1C, 0xA6, 0xB4, 0xC6, 0xE8, 0xDD, 0x74, 0x1F, 0x4B, 0xBD, 0x8B, 0x8A],
    [0x70, 0x3E, 0xB5, 0x66, 0x48, 0x03, 0xF6, 0x0E, 0x61, 0x35, 0x57, 0xB9, 0x86, 0xC1, 0x1D, 0x9E],
    [0xE1, 0xF8, 0x98, 0x11, 0x69, 0xD9, 0x8E, 0x94, 0x9B, 0x1E, 0x87, 0xE9, 0xCE, 0x55, 0x28, 0xDF],
    [0x8C, 0xA1, 0x89, 0x0D, 0xBF, 0xE6, 0x42, 0x68, 0x41, 0x99, 0x2D, 0x0F, 0xB0, 0x54, 0xBB, 0x16] ]

/-- The S-box `S[b]`, by table (R132). -/
def sbox (b : Byte) : Byte :=
  ((sboxRows0 ++ sboxRows1 ++ sboxRows2 ++ sboxRows3).getD (b.toNat / 16) []).getD (b.toNat % 16) 0

/-! ## The round transformations -/

/-- `SubBytes` (R133). -/
def subBytes (s : Block) : Block := fromBytes (fun i => sbox (byteOf s i))

/-- Output byte i of ShiftRows is input byte `SR[i]` (R134). -/
def shiftRowsSource : List Nat := [0, 5, 10, 15, 4, 9, 14, 3, 8, 13, 2, 7, 12, 1, 6, 11]

/-- `ShiftRows` (R134). -/
def shiftRows (s : Block) : Block := fromBytes (fun i => byteOf s (shiftRowsSource.getD i 0))

/-- One column of MixColumns, a0 the byte of row 0 (R135). -/
def mixColumn (w : Word32) : Word32 :=
  let a0 := wordByte w 0
  let a1 := wordByte w 1
  let a2 := wordByte w 2
  let a3 := wordByte w 3
  wordFromBytes
    (mul2 a0 ^^^ mul3 a1 ^^^ a2 ^^^ a3)
    (a0 ^^^ mul2 a1 ^^^ mul3 a2 ^^^ a3)
    (a0 ^^^ a1 ^^^ mul2 a2 ^^^ mul3 a3)
    (mul3 a0 ^^^ a1 ^^^ a2 ^^^ mul2 a3)

/-- `MixColumns`: column c is the 32-bit element c (R135, 20_memory.md R54). -/
def mixColumns (s : Block) : Block :=
  fromWords (mixColumn (wordOf s 0)) (mixColumn (wordOf s 1)) (mixColumn (wordOf s 2)) (mixColumn (wordOf s 3))

/-- `AddRoundKey` (R136). -/
def addRoundKey (s k : Block) : Block := s ^^^ k

/-- The full round (R137). -/
def aesRound (s k : Block) : Block := addRoundKey (mixColumns (shiftRows (subBytes s))) k

/-- The final round, without MixColumns (R138). -/
def aesRoundLast (s k : Block) : Block := addRoundKey (shiftRows (subBytes s)) k

/-! ## The commands -/

/-- AESENC: respond(AESRound(A, B), 0) (R140). -/
def execAesenc (s : State) : Host.Outcome State Fault Refusal :=
  s.runCommand (fun c => respond (aesRound c.a c.b) 0)

/-- AESENCLAST: respond(AESRoundLast(A, B), 0) (R141). -/
def execAesenclast (s : State) : Host.Outcome State Fault Refusal :=
  s.runCommand (fun c => respond (aesRoundLast c.a c.b) 0)

end Sys2Proof.Machine
end

