-- ==== Sys2Proof/Machine/Encrypt.lean ====
section
/-! DEFINITION. Single-block encryption (43_encrypt.md; 90_conflicts.md C1) and the command ENC. -/

namespace Sys2Proof.Machine

/-- `Encrypt128(rk, x)`: the initial AddRoundKey, nine full rounds, the final round (R190). -/
def encrypt128 (rk : Vector Block 11) (x : Block) : Block :=
  let s := (List.range' 1 9).foldl (fun s r => aesRound s ((rk[r]?).getD 0)) (addRoundKey x rk[0])
  aesRoundLast s rk[10]

/-- `Encrypt256(rk, x)`: the initial AddRoundKey, thirteen full rounds, the final round (R191, 90_conflicts.md C1). -/
def encrypt256 (rk : Vector Block 15) (x : Block) : Block :=
  let s := (List.range' 1 13).foldl (fun s r => aesRound s ((rk[r]?).getD 0)) (addRoundKey x rk[0])
  aesRoundLast s rk[14]

/-- Encryption under a loaded slot, the variant by its tag (R194). An EMPTY slot is refused before. -/
def encryptSlot (e : Slot) (x : Block) : Effect :=
  match e.tag with
  | .empty => raise .slotEmpty
  | .aes128 => respond (encrypt128 e.keys128 x) 0
  | .aes256 => respond (encrypt256 e.rk x) 0

/-- ENC: the encryption of A under KS[SLOT] (R194). -/
def execEnc (slot : Nat) (s : State) : Host.Outcome State Fault Refusal :=
  s.runCommand (fun c => withSchedule s slot (fun e => encryptSlot e c.a))

end Sys2Proof.Machine
end

