-- ==== Sys2Proof/Machine/Hash.lean ====
section
/-! DEFINITION. The correlation-robust hash engine (44_hash.md) and the commands CRHASH, CCRHASH and TCCRHASH. -/

namespace Sys2Proof.Machine

/-- `CR(rk, t, x) = E(x) ^ x`; the tweak t has no effect (R210, R211). -/
def crHash (rk : Vector Block 11) (_t x : Block) : Block := encrypt128 rk x ^^^ x

/-- `sigma(x)`: new high half x_lo, new low half x_hi ^ x_lo (R212, 90_conflicts.md C5). -/
def sigma (x : Block) : Block := mk128 (lo x) (hi x ^^^ lo x)

/-- `CCR(rk, t, x) = CR(rk, t, sigma(x))` (R213). -/
def ccrHash (rk : Vector Block 11) (t x : Block) : Block := crHash rk t (sigma x)

/-- `TCCR(rk, t, x)`: y = E(x), z = E(y ^ t), the result y ^ z (R213). -/
def tccrHash (rk : Vector Block 11) (t x : Block) : Block :=
  let y := encrypt128 rk x
  let u := y ^^^ t
  let z := encrypt128 rk u
  y ^^^ z

/-- CRHASH (R214). -/
def execCrhash (slot : Nat) (s : State) : Host.Outcome State Fault Refusal :=
  s.runCommand (fun c => withSchedule128 s slot (fun rk => respond (crHash rk c.b c.a) 0))

/-- CCRHASH (R215). -/
def execCcrhash (slot : Nat) (s : State) : Host.Outcome State Fault Refusal :=
  s.runCommand (fun c => withSchedule128 s slot (fun rk => respond (ccrHash rk c.b c.a) 0))

/-- TCCRHASH (R216). -/
def execTccrhash (slot : Nat) (s : State) : Host.Outcome State Fault Refusal :=
  s.runCommand (fun c => withSchedule128 s slot (fun rk => respond (tccrHash rk c.b c.a) 0))

end Sys2Proof.Machine
end

