-- ==== Sys2Proof/Machine/KeySchedule.lean ====
section
/-! DEFINITION. The AES-128 and AES-256 key schedule expanders (42_key_schedule.md; 90_conflicts.md C2, C3) and the
commands KEYEXP128, KEYEXP256 and RKREAD. -/

namespace Sys2Proof.Machine

/-! ## Words -/

/-- The round constants RC[1..10] (R160). -/
def roundConstants : List Byte := [0x01, 0x02, 0x04, 0x08, 0x10, 0x20, 0x40, 0x80, 0x1B, 0x36]

/-- `Rcon(j) = [RC[j], 0, 0, 0]` for j in 1..10 (R160). -/
def rcon (j : Nat) : Word32 := wordFromBytes (roundConstants.getD (j - 1) 0) 0 0 0

/-- `SubWord` (R161). -/
def subWord (w : Word32) : Word32 :=
  wordFromBytes (sbox (wordByte w 0)) (sbox (wordByte w 1)) (sbox (wordByte w 2)) (sbox (wordByte w 3))

/-- `RotWord([a0, a1, a2, a3]) = [a1, a2, a3, a0]` (R161). -/
def rotWord (w : Word32) : Word32 := wordFromBytes (wordByte w 1) (wordByte w 2) (wordByte w 3) (wordByte w 0)

/-- The new round key from an old one and the term t: each word is XORed with the new word before it, the first with
t (R162, R168). -/
def chainWords (p : Block) (t : Word32) : Block :=
  let n0 := wordOf p 0 ^^^ t
  let n1 := wordOf p 1 ^^^ n0
  let n2 := wordOf p 2 ^^^ n1
  let n3 := wordOf p 3 ^^^ n2
  fromWords n0 n1 n2 n3

/-! ## AES-128 -/

/-- `KeyStep128(p, j)` (R162). -/
def keyStep128 (p : Block) (j : Nat) : Block := chainWords p (subWord (rotWord (wordOf p 3)) ^^^ rcon j)

/-- Round key r of `Expand128(K)` (R164). -/
def roundKey128 (k : Block) : Nat → Block
  | 0 => k
  | r + 1 => keyStep128 (roundKey128 k r) (r + 1)

/-- `Expand128(K)`: 11 round keys (R164). -/
def expand128 (k : Block) : Vector Block 11 := Vector.ofFn (fun r : Fin 11 => roundKey128 k r.val)

/-! ## AES-256 -/

/-- `KeyStep256Even(e, o, j)`: the term comes from the last word of the previous odd key (R168, 90_conflicts.md C3). -/
def keyStep256Even (e o : Block) (j : Nat) : Block := chainWords e (subWord (rotWord (wordOf o 3)) ^^^ rcon j)

/-- `KeyStep256Odd(o, e_new)`: no RotWord and no round constant (R168). -/
def keyStep256Odd (o eNew : Block) : Block := chainWords o (subWord (wordOf eNew 3))

/-- Round keys 2j and 2j+1 of `Expand256(A, B)` (R167, R169). -/
def roundKeys256 (a b : Block) : Nat → Block × Block
  | 0 => (a, b)
  | j + 1 =>
    let e := keyStep256Even (roundKeys256 a b j).1 (roundKeys256 a b j).2 (j + 1)
    (e, keyStep256Odd (roundKeys256 a b j).2 e)

/-- Round key r of `Expand256(A, B)`, r in 0..14; the odd key of the last pair is not one of them (R169,
90_conflicts.md C2). -/
def roundKey256 (a b : Block) (r : Nat) : Block :=
  if r % 2 = 0 then (roundKeys256 a b (r / 2)).1 else (roundKeys256 a b (r / 2)).2

/-- `Expand256(A, B)`: 15 round keys (R169). A holds key bytes 0..15, B key bytes 16..31 (20_memory.md R56). -/
def expand256 (a b : Block) : Vector Block 15 := Vector.ofFn (fun r : Fin 15 => roundKey256 a b r.val)

/-! ## The commands -/

/-- KEYEXP128: KS[SLOT] <- the AES-128 schedule of A (R170). -/
def execKeyexp128 (slot : Nat) (s : State) : Host.Outcome State Fault Refusal :=
  s.runCommand (fun c => withLoadable s slot (loadSlot slot (Slot.ofAes128 (expand128 c.a))))

/-- KEYEXP256: KS[SLOT] <- the AES-256 schedule of (A, B) (R171). -/
def execKeyexp256 (slot : Nat) (s : State) : Host.Outcome State Fault Refusal :=
  s.runCommand (fun c => withLoadable s slot (loadSlot slot (Slot.ofAes256 (expand256 c.a c.b))))

/-- The last round-key index a tag's schedule has: 10 for AES-128, 14 for AES-256 (R172, 60_exceptions.md R258). An
EMPTY slot has no schedule and is refused before its index is looked at. -/
def lastIndex : Tag → Nat
  | .empty => 0
  | .aes128 => 10
  | .aes256 => 14

/-- Reading `rk[r]` of a loaded slot: ERR_INDEX_RANGE beyond its schedule (R172, 60_exceptions.md R258). -/
def readKey (e : Slot) (r : Nat) : Effect :=
  if lastIndex e.tag < r then raise .indexRange else respond (e.key r) 0

/-- RKREAD: respond(KS[SLOT].rk[IDX], 0) (R172). -/
def execRkread (slot idx : Nat) (s : State) : Host.Outcome State Fault Refusal :=
  s.runCommand (fun _ => withSchedule s slot (fun e => readKey e idx))

end Sys2Proof.Machine
end

