-- ==== Sys2Proof/Machine/Dispatch.lean ====
section
/-! DEFINITION. One arm for each command of the opcode map (30_encoding.md R86). -/

namespace Sys2Proof.Machine

def exec (i : Instr) (s : State) : Host.Outcome State Fault Refusal :=
  match i with
  | .nop => Sys2Proof.Machine.execNop s
  | .idread => Sys2Proof.Machine.execIdread s
  | .clmul => Sys2Proof.Machine.execClmul s
  | .aesenc => Sys2Proof.Machine.execAesenc s
  | .aesenclast => Sys2Proof.Machine.execAesenclast s
  | .keyexp128 slot => Sys2Proof.Machine.execKeyexp128 slot s
  | .keyexp256 slot => Sys2Proof.Machine.execKeyexp256 slot s
  | .rkread slot idx => Sys2Proof.Machine.execRkread slot idx s
  | .enc slot => Sys2Proof.Machine.execEnc slot s
  | .crhash slot => Sys2Proof.Machine.execCrhash slot s
  | .ccrhash slot => Sys2Proof.Machine.execCcrhash slot s
  | .tccrhash slot => Sys2Proof.Machine.execTccrhash slot s

end Sys2Proof.Machine
end

