-- ==== Sys2Proof/Machine/Step.lean ====
section
/-! DEFINITION. One step of the machine: the reset event if the reset input is asserted, else the next command the
block accepts, executed whole (20_memory.md R57, R62), else an idle port. -/

namespace Sys2Proof.Machine

/-- One step. A word that is no command is answered with its status (30_encoding.md R87, R88). -/
def step (s : State) : Host.Outcome State Fault Refusal :=
  match s.resetLine with
  | .betweenCommands => .next s.resetEvent
  | .duringCommand => .next s.abandonAndReset
  | .released =>
    match s.accept with
    | none => .next s.idle
    | some (t, s') =>
      match decodeWord t.command.cmd with
      | .ok i => exec i s'
      | .error e => rejectWord e s'

/-- `s` with the word `w` (its bits above `nbits` zero) presented by the only requester, operands 0, and the reset
input released, so that the next step accepts and runs it. The block fetches no program (20_memory.md R67); log entry
6 says how a command comes to it. -/
def State.withFetchWord (s : State) (nbits w : Nat) : State :=
  { s with
    requesters := [[⟨BitVec.ofNat 32 (w % 2 ^ nbits), 0, 0⟩]]
    resetLine := .released }

end Sys2Proof.Machine
end

