-- ==== Sys2Proof/Safety.lean ====
section
/-! DEFINITION. What claims call a good state and a good outcome: the slot invariant (10_state.md R22, R26), the range
of NKS (00_scope.md R10), and no transaction between steps (R20). -/

namespace Sys2Proof.Machine

/-- The slot invariant (10_state.md R22): an EMPTY slot holds zeros, an AES-128 slot the schedule of its first round key
and zeros above it, an AES-256 slot the schedule of its first two round keys. -/
def Slot.Conforming (e : Slot) : Prop :=
  match e.tag with
  | .empty => e = Slot.emptySlot
  | .aes128 => e = Slot.ofAes128 (expand128 (e.key 0))
  | .aes256 => e = Slot.ofAes256 (expand256 (e.key 0) (e.key 1))

/-- The invariant of the machine between steps: NKS is in 2..16 (R10), every loadable slot keeps the slot invariant
(R22), and no transaction is in progress (R20, R31). Slot 0 holds FIXED_RK, of which nothing is assumed (R11). -/
structure State.Inv (s : State) : Prop where
  nks_low : 2 ≤ s.nks
  nks_high : s.nks ≤ 16
  slots : ∀ e ∈ s.loadable, e.Conforming
  quiet : s.txn = none

/-- What every completed transaction leaves: the response to its requester, no transaction, and everything but the
loadable slots unchanged (R20, R28, R57); the ghost clock has advanced by LAT (R12). -/
structure Responds (s : State) (t : Txn) (u : State) (st : Status) (r0 r1 : Block) : Prop where
  response : u.response = some ⟨t.requester, st, r0, r1⟩
  fixedRk : u.fixedRk = s.fixedRk
  requesters : u.requesters = s.requesters
  resetLine : u.resetLine = s.resetLine
  txn : u.txn = none
  grants : u.grants = s.grants
  busyCycles : u.busyCycles = s.busyCycles + s.latencyOf t.command.cmd st

/-- The outcome is a next state in which the transaction has completed with the given response and every key slot is
unchanged. -/
def Completes (s : State) (t : Txn) (o : Host.Outcome State Fault Refusal) (st : Status) (r0 r1 : Block) : Prop :=
  ∃ u, o = .next u ∧ Responds s t u st r0 r1 ∧ u.loadable = s.loadable

/-- The outcome is a next state in which the transaction has completed with status OK and both results 0, slot n holds
`e`, and every other key slot is unchanged. -/
def Loads (s : State) (t : Txn) (o : Host.Outcome State Fault Refusal) (n : Nat) (e : Slot) : Prop :=
  ∃ u, o = .next u ∧ Responds s t u .ok 0 0 ∧ u.nks = s.nks ∧ u.slot n = e ∧ ∀ m, m ≠ n → u.slot m = s.slot m

/-- The twelve OP values of the opcode map (30_encoding.md R86). -/
def opValues : List Byte := [0x00, 0x01, 0x10, 0x20, 0x21, 0x30, 0x31, 0x32, 0x40, 0x50, 0x51, 0x52]

/-- RSV, or a SLOT or IDX the command does not use, is nonzero (60_exceptions.md R253). -/
def ReservedNonzero (w : Word32) : Prop :=
  rsvField w ≠ 0 ∨ (opField w ∈ ([0x00, 0x01, 0x10, 0x20, 0x21] : List Byte) ∧ slotField w ≠ 0) ∨
    (opField w ≠ 0x32 ∧ idxField w ≠ 0)

/-- The condition of each error, from the command word and the slot file alone (60_exceptions.md R252 to R258). Several
may hold at once. -/
def ErrorHolds (s : State) (w : Word32) : Status → Prop
  | .ok => False
  | .illegalOpcode => opField w ∉ opValues
  | .reservedField => opField w ∈ opValues ∧ ReservedNonzero w
  | .slotRange => opField w ∈ ([0x30, 0x31, 0x32, 0x40, 0x50, 0x51, 0x52] : List Byte) ∧ s.nks ≤ slotField w
  | .slotReadonly => opField w ∈ ([0x30, 0x31] : List Byte) ∧ slotField w = 0
  | .slotEmpty =>
    opField w ∈ ([0x32, 0x40, 0x50, 0x51, 0x52] : List Byte) ∧ (s.slot (slotField w)).tag = .empty
  | .slotVariant => opField w ∈ ([0x50, 0x51, 0x52] : List Byte) ∧ (s.slot (slotField w)).tag = .aes256
  | .indexRange =>
    opField w = 0x32 ∧ (((s.slot (slotField w)).tag = .aes128 ∧ 10 < idxField w) ∨
      ((s.slot (slotField w)).tag = .aes256 ∧ 14 < idxField w))

/-- A step that answers a next state: no command hangs or stops the block (60_exceptions.md R273). -/
def Answers (o : Host.Outcome State Fault Refusal) : Prop := ∃ t, o = .next t

end Sys2Proof.Machine
end

