-- ==== Sys2Proof/Certificates/Slice0/Obligations.lean ====
section
/-! DEFINITION. The statements for the provers, from the spec's numbered rules. `Completes`, `Loads`, `Responds`,
`ErrorHolds` and `State.Inv` are defined in Sys2Proof/Safety.lean. -/

open Sys2Proof Sys2Proof.Machine

/-! ## Encoding (30_encoding.md) -/

/-- R93: the whole table of command words, for every SLOT = s and IDX = r, both ways. -/
def Obligations.WordsOfTheSpecDecode : Prop :=
  ∀ s r : Nat, s < 16 → r < 16 →
    ∀ p ∈ [(0x00000000, Instr.nop), (0x00000001, .idread), (0x00000010, .clmul), (0x00000020, .aesenc),
        (0x00000021, .aesenclast), (0x00000030 + 0x100 * s, .keyexp128 s), (0x00000031 + 0x100 * s, .keyexp256 s),
        (0x00000032 + 0x100 * s + 0x1000 * r, .rkread s r), (0x00000040 + 0x100 * s, .enc s),
        (0x00000050 + 0x100 * s, .crhash s), (0x00000051 + 0x100 * s, .ccrhash s), (0x00000052 + 0x100 * s, .tccrhash s)],
      encode p.2 = BitVec.ofNat 32 p.1 ∧ decodeWord (BitVec.ofNat 32 p.1) = .ok p.2

/-- The decoder reads back every well-formed command, from its word (R80, R86, R93) and from its bytes (R53). -/
def Obligations.DecodeOfEncodeIsTheCommand : Prop :=
  ∀ (i : Instr) (rest : List Byte), i.wellFormed = true →
    decodeWord (encode i) = .ok i ∧ decodeBytes (encodeBytes i ++ rest) = .ok (i, rest)

/-- Each word means at most one command and each command has one word: what decodes is well formed and encodes to the
word it came from (R86, R88). -/
def Obligations.EncodeOfDecodeIsTheWord : Prop :=
  ∀ (w : Word32) (i : Instr), decodeWord w = .ok i → i.wellFormed = true ∧ encode i = w

/-- R53: the word is carried little-endian, byte 0 = CMD[7:0], and whatever follows its four bytes is left over. -/
def Obligations.CommandWordIsCarriedLittleEndian : Prop :=
  ∀ (w : Word32) (rest : List Byte),
    (bytesOfWord w).length = 4 ∧ (bytesOfWord w).head? = some (opField w) ∧
      (∀ k, k < 4 → (bytesOfWord w).getD k 0 = w.extractLsb' (8 * k) 8) ∧
      decodeBytes (bytesOfWord w ++ rest) =
        match decodeWord w with
        | .ok i => .ok (i, rest)
        | .error e => .error (.noCommand e)

/-- R252: a word whose OP is not in the opcode map is answered ERR_ILLEGAL_OPCODE, whatever its other bits. -/
def Obligations.IllegalOpcodeIsAnswered : Prop :=
  ∀ (s s' : State) (t : Txn), s.resetLine = .released → s.accept = some (t, s') →
    opField t.command.cmd ∉ opValues → Completes s' t (step s) .illegalOpcode 0 0

/-- R253: with a legal OP, a nonzero reserved or unused field is answered ERR_RESERVED_FIELD, and without one the word
is a command. -/
def Obligations.ReservedFieldIsAnswered : Prop :=
  ∀ (s s' : State) (t : Txn), s.resetLine = .released → s.accept = some (t, s') → opField t.command.cmd ∈ opValues →
    (ReservedNonzero t.command.cmd → Completes s' t (step s) .reservedField 0 0) ∧
      (¬ ReservedNonzero t.command.cmd → ∃ i, decodeWord t.command.cmd = .ok i)

/-! ## A step (20_memory.md section 5, 60_exceptions.md) -/

/-- What a step adds around `exec`: it takes the oldest command of the granted requester, captures CMD, A and B, clears
the last response, and runs the decoded command in that state (R62, R63, R285). That the response is cleared here and
that `grants` advances are the model's own conventions (log entries 8 and 3). -/
def Obligations.StepRunsTheDecodedCommand : Prop :=
  ∀ (s s' : State) (t : Txn), s.resetLine = .released → s.accept = some (t, s') →
    (∃ rest, s.queue t.requester = t.command :: rest ∧
      s' = { s with
        requesters := s.requesters.set t.requester rest
        txn := some t
        response := none
        grants := s.grants + 1 }) ∧
      ∀ i, decodeWord t.command.cmd = .ok i → step s = exec i s'

/-- A word placed with `withFetchWord` is the very next command (the model's convention, log entry 6). -/
def Obligations.PlacedWordRunsNext : Prop :=
  ∀ (s : State) (nbits w : Nat) (i : Instr), decodeTableWord nbits w = some i →
    step (s.withFetchWord nbits w) =
      exec i { s with
        requesters := [[]]
        resetLine := .released
        txn := some ⟨0, BitVec.ofNat 32 (w % 2 ^ nbits), 0, 0⟩
        response := none
        grants := s.grants + 1 }

/-- With no command waiting and the reset input released, nothing happens (R20, R28); that the last response is cleared
is the model's convention (log entry 8). -/
def Obligations.IdlePortChangesNothing : Prop :=
  ∀ s : State, s.resetLine = .released → (∀ k, s.queue k = []) →
    step s = .next { s with txn := none, response := none }

/-- R273: every step answers a next state, and a step that accepts a command returns its response and leaves the block
able to accept the next. -/
def Obligations.NoCommandHangsTheBlock : Prop :=
  (∀ s : State, ∃ u, step s = .next u) ∧
    ∀ (s s' : State) (t : Txn), s.resetLine = .released → s.accept = some (t, s') →
      ∃ u r, step s = .next u ∧ u.response = some r ∧ r.requester = t.requester ∧ u.txn = none ∧
        u.resetLine = .released

/-- R63, R286: where some requester has a command waiting, exactly one requester's oldest command is accepted and
answered to it, its later commands keep their order, and no other requester's commands move. -/
def Obligations.WaitingCommandsAreServedInOrder : Prop :=
  ∀ s : State, s.resetLine = .released → (∃ k, s.queue k ≠ []) →
    ∃ k c rest u r, s.queue k = c :: rest ∧ step s = .next u ∧ u.response = some r ∧ r.requester = k ∧
      u.queue k = rest ∧ ∀ m, m ≠ k → u.queue m = s.queue m

/-- R251: an error returns R0 = R1 = 0 and changes no state but the port's own and the model's ghost clock (log entry
2); it is not retained: the next step is
the same whatever response the block had returned. -/
def Obligations.ErrorsChangeNothing : Prop :=
  ∀ (s s' u : State) (t : Txn) (r : Response), s.resetLine = .released → s.accept = some (t, s') →
    step s = .next u → u.response = some r → r.st ≠ .ok →
    r.r0 = 0 ∧ r.r1 = 0 ∧
      u = { s' with txn := none, response := some r, busyCycles := u.busyCycles } ∧
      ∀ other, step { u with response := other } = step u

/-- R250, R260: the codes of the statuses, of which none is above 0x07, and the statuses a command can return. -/
def Obligations.StatusIsOneTheCommandCanReturn : Prop :=
  (∀ (s s' u : State) (t : Txn), s.resetLine = .released → s.accept = some (t, s') → step s = .next u →
    ∃ r, u.response = some r ∧
      match decodeWord t.command.cmd with
      | .ok i => r.st ∈ possibleStatus i
      | .error .illegalOpcode => r.st = .illegalOpcode
      | .error .reservedField => r.st = .reservedField) ∧
    [Status.ok, .illegalOpcode, .reservedField, .slotRange, .slotReadonly, .slotEmpty, .slotVariant, .indexRange].map
      Status.code = [0x00, 0x01, 0x02, 0x03, 0x04, 0x05, 0x06, 0x07] ∧ ∀ st : Status, st.code ≤ 0x07

/-- R259: of the error conditions that hold, the one first in the priority order is reported, and OK only where none
holds; the pairs R259 names never hold together. -/
def Obligations.FirstErrorInPriorityIsReported : Prop :=
  (∀ (s s' u : State) (t : Txn), s.resetLine = .released → s.accept = some (t, s') → step s = .next u →
    ∃ r, u.response = some r ∧
      ((r.st = .ok ∧ ∀ e, ¬ ErrorHolds s t.command.cmd e) ∨
        (ErrorHolds s t.command.cmd r.st ∧ ∀ e, ErrorHolds s t.command.cmd e → r.st.priority ≤ e.priority))) ∧
    (∀ (s : State) (w : Word32), ¬ (ErrorHolds s w .slotRange ∧ ErrorHolds s w .slotReadonly) ∧
      ¬ (ErrorHolds s w .slotEmpty ∧ ErrorHolds s w .slotVariant)) ∧
    [Status.illegalOpcode, .reservedField, .slotRange, .slotReadonly, .slotEmpty, .slotVariant, .indexRange].map
      Status.priority = [1, 2, 3, 4, 5, 6, 7]

/-- R21, R85, R211: an operand a command does not use never affects its outcome. -/
def Obligations.UnusedOperandsAreIgnored : Prop :=
  ∀ (i : Instr) (s : State) (t : Txn) (v : Block), s.txn = some t →
    (readsA i = false → ∃ u, exec i s = .next u ∧
      exec i { s with txn := some ⟨t.requester, t.command.cmd, v, t.command.b⟩ } = .next u) ∧
      (readsB i = false → ∃ u, exec i s = .next u ∧
        exec i { s with txn := some ⟨t.requester, t.command.cmd, t.command.a, v⟩ } = .next u)

/-- R59: ten commands change no slot; the two KEYEXP commands change at most the one they name; repeating any command
with the same operands gives the same response and leaves the same slots. -/
def Obligations.SideEffectsAreOneSlotAndRepeatable : Prop :=
  ∀ (i : Instr) (s u : State) (t : Txn), s.txn = some t → exec i s = .next u →
    (writesSlot i = false → u.loadable = s.loadable) ∧ (∀ m, m ≠ i.slotOf → u.slot m = s.slot m) ∧
      ∃ v, exec i { u with txn := some t } = .next v ∧ v.response = u.response ∧ v.loadable = u.loadable

/-- R64: a command that only reads slots never changes what another command returns or leaves. -/
def Obligations.ReadersNeverInterfere : Prop :=
  ∀ (i j : Instr) (s u : State) (t t' : Txn), writesSlot i = false → exec i { s with txn := some t } = .next u →
    ∃ v w, exec j { u with txn := some t' } = .next v ∧ exec j { s with txn := some t' } = .next w ∧
      v.response = w.response ∧ v.loadable = w.loadable ∧ v.fixedRk = w.fixedRk

/-- R291: the latency of a command depends neither on A or B nor on the contents of a key slot: two steps that accept
the same word with the same slot tags take equally long, and two that complete with OK do so where only OP and the
tag of the named slot agree; IDR reports it in F_CT. The clock that shows it is the model's own (log entry 2). -/
def Obligations.LatencyIsIndependentOfData : Prop :=
  ∀ (s₁ s₂ s₁' s₂' u₁ u₂ : State) (t₁ t₂ : Txn),
    s₁.resetLine = .released → s₂.resetLine = .released → s₁.accept = some (t₁, s₁') → s₂.accept = some (t₂, s₂') →
    step s₁ = .next u₁ → step s₂ = .next u₂ →
    (t₁.command.cmd = t₂.command.cmd → s₁.tags = s₂.tags →
      ∃ d, u₁.busyCycles = s₁.busyCycles + d ∧ u₂.busyCycles = s₂.busyCycles + d) ∧
      (∀ r₁ r₂, u₁.response = some r₁ → u₂.response = some r₂ → r₁.st = .ok → r₂.st = .ok →
        opField t₁.command.cmd = opField t₂.command.cmd →
        (s₁.slot (slotField t₁.command.cmd)).tag = (s₂.slot (slotField t₂.command.cmd)).tag →
        ∃ d, u₁.busyCycles = s₁.busyCycles + d ∧ u₂.busyCycles = s₂.busyCycles + d) ∧
      s₁.idr.getLsbD 14 = true

/-! ## Key slots, IDR and reset (10_state.md, 70_reset_and_hazards.md) -/

/-- R22: every step, a reset among them, keeps the slot invariant, the range of NKS and the quiet port; slot 0 always
holds an AES-128 tag and zeros above its schedule. -/
def Obligations.EveryStepKeepsTheInvariant : Prop :=
  ∀ s u : State, s.Inv → step s = .next u →
    u.Inv ∧ (u.slot 0).tag = .aes128 ∧ ∀ r, 11 ≤ r → r < 15 → (u.slot 0).key r = 0

/-- The state after reset meets the invariant. -/
def Obligations.ResetMeetsTheInvariant : Prop := State.reset.Inv

/-- R23: slot 0 is FIXED_RK with an AES-128 tag, and no step changes it, FIXED_RK or NKS. -/
def Obligations.SlotZeroIsHardwired : Prop :=
  ∀ s : State,
    ((s.slot 0).tag = .aes128 ∧ (∀ r, (h : r < 11) → (s.slot 0).key r = s.fixedRk[r]) ∧
      ∀ r, 11 ≤ r → r < 15 → (s.slot 0).key r = 0) ∧
      (∀ u, step s = .next u → u.slot 0 = s.slot 0 ∧ u.fixedRk = s.fixedRk ∧ u.nks = s.nks) ∧
      ∀ t, s.txn = some t →
        Completes s t (exec (.keyexp128 0) s) .slotReadonly 0 0 ∧
          Completes s t (exec (.keyexp256 0) s) .slotReadonly 0 0

/-- R24: with the reset input released, a slot changes only where the accepted command is a KEYEXP that names it, and
then it is replaced whole. -/
def Obligations.OnlyKeyexpWritesASlotAndWhole : Prop :=
  ∀ (s u : State) (n : Nat), s.resetLine = .released → step s = .next u → u.slot n ≠ s.slot n →
    ∃ t s', s.accept = some (t, s') ∧
      ((decodeWord t.command.cmd = .ok (.keyexp128 n) ∧ u.slot n = Slot.ofAes128 (expand128 t.command.a)) ∨
        (decodeWord t.command.cmd = .ok (.keyexp256 n) ∧
          u.slot n = Slot.ofAes256 (expand256 t.command.a t.command.b)))

/-- R27: the fields of IDR, and that no step changes it. -/
def Obligations.IdrFieldsAreConstant : Prop :=
  ∀ s : State, s.nks ≤ 16 →
    s.idr.extractLsb' 0 8 = 0x01#8 ∧ (∀ b, 8 ≤ b → b ≤ 14 → s.idr.getLsbD b = true) ∧ s.idr.getLsbD 15 = false ∧
      (s.idr.extractLsb' 16 5).toNat = s.nks ∧ s.idr.extractLsb' 21 107 = 0 ∧
      s.idr = 0x7F01#128 ||| (BitVec.ofNat 128 s.nks <<< 16) ∧ ∀ u, step s = .next u → u.idr = s.idr

/-- R31, R280: what a reset between commands leaves. -/
def Obligations.ResetEventRestoresTheResetValues : Prop :=
  ∀ s : State, s.resetLine = .betweenCommands →
    ∃ u, step s = .next u ∧
      (u.slot 0 = s.slot 0 ∧ (u.slot 0).tag = .aes128 ∧ (∀ r, (h : r < 11) → (u.slot 0).key r = s.fixedRk[r]) ∧
        ∀ r, 11 ≤ r → r < 15 → (u.slot 0).key r = 0) ∧
      (∀ n, 1 ≤ n → n < u.nks → (u.slot n).tag = .empty ∧ ∀ r, r < 15 → (u.slot n).key r = 0) ∧
      u.nks = s.nks ∧ u.idr = s.idr ∧ u.txn = none ∧ u.response = none

/-- R281: a reset during a command abandons it with no response, whatever the command is, and leaves the reset
values. The last clause, that the requester's later commands go on waiting, is the model's inference from R286 (log
entry 5, DEDUCED) and is not said by R281. -/
def Obligations.ResetDuringACommandAbandonsIt : Prop :=
  ∀ (s s' : State) (t : Txn), s.resetLine = .duringCommand → s.accept = some (t, s') →
    ∃ u, step s = .next u ∧ u.response = none ∧ u.txn = none ∧ u.slot 0 = s.slot 0 ∧
      (∀ n, 1 ≤ n → n < u.nks → (u.slot n).tag = .empty ∧ ∀ r, r < 15 → (u.slot n).key r = 0) ∧
      u.nks = s.nks ∧ u.idr = s.idr ∧ s.queue t.requester = t.command :: u.queue t.requester

/-- R282: right after a reset, between commands or during one, every command that needs no loaded slot, and every
command on slot 0, completes with OK, and a read of a loadable slot is answered ERR_SLOT_EMPTY. -/
def Obligations.AfterResetSlotZeroIsReady : Prop :=
  ∀ (s u : State) (t : Txn) (i : Instr), s.resetLine = .betweenCommands ∨ s.resetLine = .duringCommand →
    step s = .next u →
    let v := { u with txn := some t }
    (i ∈ [Instr.nop, .idread, .clmul, .aesenc, .aesenclast, .enc 0, .crhash 0, .ccrhash 0, .tccrhash 0] ∨
      (∃ r, r ≤ 10 ∧ i = .rkread 0 r) → ∃ r0 r1, Completes v t (exec i v) .ok r0 r1) ∧
      ∀ n, 1 ≤ n → n < s.nks →
        ((∃ r, i = .rkread n r) ∨ i = .enc n ∨ i = .crhash n ∨ i = .ccrhash n ∨ i = .tccrhash n) →
          Completes v t (exec i v) .slotEmpty 0 0

/-- R62: a command accepted after a KEYEXP on the same slot uses the new schedule, for either variant. -/
def Obligations.EncUsesTheScheduleJustLoaded : Prop :=
  ∀ (s : State) (n : Nat) (k k' b x : Block) (rest : List Command), s.resetLine = .released → 1 ≤ n → n < s.nks → n < 16 →
    (s.requesters = [⟨encode (.keyexp128 n), k, b⟩ :: ⟨encode (.enc n), x, b⟩ :: rest] →
      ∃ u v, step s = .next u ∧ step u = .next v ∧ u.response = some ⟨0, .ok, 0, 0⟩ ∧
        v.response = some ⟨0, .ok, encrypt128 (expand128 k) x, 0⟩) ∧
      (s.requesters = [⟨encode (.keyexp256 n), k, k'⟩ :: ⟨encode (.enc n), x, b⟩ :: rest] →
        ∃ u v, step s = .next u ∧ step u = .next v ∧ u.response = some ⟨0, .ok, 0, 0⟩ ∧
          v.response = some ⟨0, .ok, encrypt256 (expand256 k k') x, 0⟩)

/-! ## Control commands (45_control.md) -/

/-- R230: NOP's word, its reserved words, and its response. -/
def Obligations.NopRespondsZero : Prop :=
  encode .nop = 0 ∧ decodeWord 0 = .ok .nop ∧
    (∀ w, opField w = 0x00 → w ≠ 0 → decodeWord w = .error .reservedField) ∧ Status.ok.code = 0x00 ∧
    ∀ (s : State) (t : Txn), s.txn = some t → Completes s t (exec .nop s) .ok 0 0

/-- R231: IDREAD's word, its reserved words, and its response, which depends only on NKS. -/
def Obligations.IdreadReturnsIdr : Prop :=
  encode .idread = 0x00000001 ∧ (∀ w, opField w = 0x01 → w ≠ 1 → decodeWord w = .error .reservedField) ∧
    (∀ (s : State) (t : Txn), s.txn = some t → Completes s t (exec .idread s) .ok s.idr 0) ∧
    (∀ s s' : State, s.nks = s'.nks → s.idr = s'.idr) ∧ (∀ s u : State, step s = .next u → u.idr = s.idr) ∧
    ∀ s : State, s.nks = 4 → s.idr = 0x00000000000000000000000000047F01

/-! ## Carryless multiplier (40_clmul.md) -/

/-- R115: CLMUL returns the halves of the naive shift-and-XOR product, for every A and B. -/
def Obligations.ClmulMatchesTheNaiveReference : Prop :=
  ∀ (s : State) (t : Txn), s.txn = some t →
    Completes s t (exec .clmul s) .ok ((clmulReference t.command.a t.command.b).extractLsb' 0 128)
      ((clmulReference t.command.a t.command.b).extractLsb' 128 128)

/-- R111: bit k of CLMUL64 is the XOR over i + j = k of a[i] & b[j]; bit 127 is 0. -/
def Obligations.Clmul64IsTheConvolution : Prop :=
  ∀ a b : Half,
    (∀ k, k < 128 → (clmul64 a b).getLsbD k =
      (List.range 64).foldl (fun acc j => acc ^^ (decide (j ≤ k) && a.getLsbD (k - j) && b.getLsbD j)) false) ∧
      (clmul64 a b).getLsbD 127 = false

/-- R112: bit k of the product, R1 above R0, is the XOR over i + j = k of a[i] & b[j]; bit 255 is 0. -/
def Obligations.Clmul128IsTheConvolution : Prop :=
  ∀ a b : Block,
    (∀ k, k < 256 → ((clmul128 a b).2 ++ (clmul128 a b).1).getLsbD k =
      (List.range 128).foldl (fun acc j => acc ^^ (decide (j ≤ k) && a.getLsbD (k - j) && b.getLsbD j)) false) ∧
      (clmul128 a b).2.getLsbD 127 = false

/-- R113: the laws of the product. -/
def Obligations.ClmulLaws : Prop :=
  ∀ a b c : Block,
    clmul128 a b = clmul128 b a ∧
      clmul128 a (b ^^^ c) = ((clmul128 a b).1 ^^^ (clmul128 a c).1, (clmul128 a b).2 ^^^ (clmul128 a c).2) ∧
      clmul128 (a ^^^ c) b = ((clmul128 a b).1 ^^^ (clmul128 c b).1, (clmul128 a b).2 ^^^ (clmul128 c b).2) ∧
      clmul128 a 0 = (0, 0) ∧ clmul128 a 1 = (a, 0) ∧
      (∀ k, k < 128 → (clmul128 a (1#128 <<< k)).2 ++ (clmul128 a (1#128 <<< k)).1 = (a.setWidth 256 <<< k : BitVec 256)) ∧
      ∀ i, i < 128 → ((clmul128 a a).2 ++ (clmul128 a a).1).getLsbD (2 * i) = a.getLsbD i ∧
        ((clmul128 a a).2 ++ (clmul128 a a).1).getLsbD (2 * i + 1) = false

/-! ## The AES round (41_aes_round.md) -/

/-- R130, R131: the byte product is the polynomial product modulo 0x11B, mul2 and mul3 are products by constants, and
every nonzero byte has an inverse. -/
def Obligations.ByteFieldIsPolynomialsModulo0x11B : Prop :=
  (∀ a b : Byte, ∃ q : Half,
    clmul64 (a.setWidth 64) (b.setWidth 64) = clmul64 q 0x11B ^^^ (gfMul a b).setWidth 128) ∧
    (∀ b : Byte, xtime b = gfMul b 0x02 ∧ mul2 b = gfMul b 0x02 ∧ mul3 b = gfMul b 0x03) ∧
    ∀ a : Byte, a ≠ 0 → ∃ q, gfMul a q = 1

/-- R132: every entry of the S-box table is the affine map of the inverse. -/
def Obligations.SboxIsTheAffineMapOfTheInverse : Prop :=
  ∀ b : Byte, ∃ q : Byte, (b = 0 → q = 0) ∧ (b ≠ 0 → gfMul b q = 1) ∧
    ∀ i, i < 8 → (sbox b).getLsbD i =
      (q.getLsbD i ^^ q.getLsbD ((i + 4) % 8) ^^ q.getLsbD ((i + 5) % 8) ^^ q.getLsbD ((i + 6) % 8) ^^
        q.getLsbD ((i + 7) % 8) ^^ (0x63#8).getLsbD i)

/-- R133: SubBytes replaces every byte by its S-box value. -/
def Obligations.SubBytesActsOnEachByte : Prop :=
  ∀ (s : Block) (i : Nat), i < 16 → byteOf (subBytes s) i = sbox (byteOf s i)

/-- R134: ShiftRows rotates row r left by r columns, and the byte permutation is SR. -/
def Obligations.ShiftRowsRotatesRows : Prop :=
  ∀ s : Block,
    (∀ r c, r < 4 → c < 4 → byteOf (shiftRows s) (r + 4 * c) = byteOf s (r + 4 * ((c + r) % 4))) ∧
      ∀ i, i < 16 → byteOf (shiftRows s) i =
        byteOf s ([0, 5, 10, 15, 4, 9, 14, 3, 8, 13, 2, 7, 12, 1, 6, 11].getD i 0)

/-- R135: MixColumns replaces the four bytes of each column, and a column depends on itself alone. -/
def Obligations.MixColumnsMixesEachColumn : Prop :=
  ∀ (s : Block) (c : Nat), c < 4 →
    let a := fun r => byteOf s (4 * c + r)
    byteOf (mixColumns s) (4 * c) = mul2 (a 0) ^^^ mul3 (a 1) ^^^ a 2 ^^^ a 3 ∧
      byteOf (mixColumns s) (4 * c + 1) = a 0 ^^^ mul2 (a 1) ^^^ mul3 (a 2) ^^^ a 3 ∧
      byteOf (mixColumns s) (4 * c + 2) = a 0 ^^^ a 1 ^^^ mul2 (a 2) ^^^ mul3 (a 3) ∧
      byteOf (mixColumns s) (4 * c + 3) = mul3 (a 0) ^^^ a 1 ^^^ a 2 ^^^ mul2 (a 3)

/-- R139: SubBytes and ShiftRows commute, and a uniform state stays uniform under both rounds with a zero key. -/
def Obligations.RoundLaneStructure : Prop :=
  (∀ s : Block, shiftRows (subBytes s) = subBytes (shiftRows s)) ∧
    ∀ u : Byte, aesRound (fromBytes fun _ => u) 0 = fromBytes (fun _ => sbox u) ∧
      aesRoundLast (fromBytes fun _ => u) 0 = fromBytes fun _ => sbox u

/-- R137, R140: AESENC completes with R1 = 0 and, for each column c, the mixed, shifted, substituted bytes of A, XORed
with those of B. -/
def Obligations.AesencReturnsTheFullRound : Prop :=
  ∀ (s : State) (t : Txn), s.txn = some t → ∃ v : Block, Completes s t (exec .aesenc s) .ok v 0 ∧
    ∀ c, c < 4 →
      let x := fun r => sbox (byteOf t.command.a (r + 4 * ((c + r) % 4)))
      let k := fun r => byteOf t.command.b (4 * c + r)
      byteOf v (4 * c) = mul2 (x 0) ^^^ mul3 (x 1) ^^^ x 2 ^^^ x 3 ^^^ k 0 ∧
        byteOf v (4 * c + 1) = x 0 ^^^ mul2 (x 1) ^^^ mul3 (x 2) ^^^ x 3 ^^^ k 1 ∧
        byteOf v (4 * c + 2) = x 0 ^^^ x 1 ^^^ mul2 (x 2) ^^^ mul3 (x 3) ^^^ k 2 ∧
        byteOf v (4 * c + 3) = mul3 (x 0) ^^^ x 1 ^^^ x 2 ^^^ mul2 (x 3) ^^^ k 3

/-- R138, R141: AESENCLAST completes with R1 = 0 and the shifted, substituted bytes of A, XORed with those of B. -/
def Obligations.AesenclastReturnsTheFinalRound : Prop :=
  ∀ (s : State) (t : Txn), s.txn = some t → ∃ v : Block, Completes s t (exec .aesenclast s) .ok v 0 ∧
    ∀ r c, r < 4 → c < 4 →
      byteOf v (r + 4 * c) = sbox (byteOf t.command.a (r + 4 * ((c + r) % 4))) ^^^ byteOf t.command.b (r + 4 * c)

/-! ## Key schedules (42_key_schedule.md) -/

/-- R160: the ten round constant words, RC[j] in the byte of lowest index; R161: SubWord and RotWord in byte form and
as a rotation, and that they commute. -/
def Obligations.WordFunctionsInByteForm : Prop :=
  (∀ j, 1 ≤ j → j ≤ 10 →
    wordByte (rcon j) 0 = ([0x01, 0x02, 0x04, 0x08, 0x10, 0x20, 0x40, 0x80, 0x1B, 0x36] : List Byte).getD (j - 1) 0 ∧
      wordByte (rcon j) 1 = 0 ∧ wordByte (rcon j) 2 = 0 ∧ wordByte (rcon j) 3 = 0) ∧
  ∀ u v : Word32,
    (∀ k, k < 4 → wordByte (subWord u) k = sbox (wordByte u k) ∧
      wordByte (rotWord u) k = wordByte u ((k + 1) % 4) ∧
      wordByte (u ^^^ v) k = wordByte u k ^^^ wordByte v k) ∧
      rotWord u = (u >>> 8) ||| ((u &&& 0xFF) <<< 24) ∧ subWord (rotWord u) = rotWord (subWord u)

/-- R164: Expand128 in its step form and in the word form of the standard. -/
def Obligations.Expand128IsTheWordRecurrence : Prop :=
  ∀ k : Block,
    (∀ r, (h : r < 11) → (expand128 k)[r] = roundKey128 k r) ∧ roundKey128 k 0 = k ∧
      (∀ r, 1 ≤ r → r ≤ 10 → roundKey128 k r = keyStep128 (roundKey128 k (r - 1)) r) ∧
      let w := fun i => wordOf (roundKey128 k (i / 4)) (i % 4)
      ∀ i, 4 ≤ i → i < 44 → w i = w (i - 4) ^^^
        (if i % 4 = 0 then subWord (rotWord (w (i - 1))) ^^^ rcon (i / 4) else w (i - 1))

/-- R169: Expand256 in its step form and in the word form of the standard. -/
def Obligations.Expand256IsTheWordRecurrence : Prop :=
  ∀ a b : Block,
    (∀ r, (h : r < 15) → (expand256 a b)[r] = roundKey256 a b r) ∧ roundKey256 a b 0 = a ∧ roundKey256 a b 1 = b ∧
      (∀ j, 1 ≤ j → j ≤ 6 →
        roundKey256 a b (2 * j) = keyStep256Even (roundKey256 a b (2 * j - 2)) (roundKey256 a b (2 * j - 1)) j ∧
          roundKey256 a b (2 * j + 1) = keyStep256Odd (roundKey256 a b (2 * j - 1)) (roundKey256 a b (2 * j))) ∧
      roundKey256 a b 14 = keyStep256Even (roundKey256 a b 12) (roundKey256 a b 13) 7 ∧
      let w := fun i => wordOf (roundKey256 a b (i / 4)) (i % 4)
      (∀ i, i < 4 → w i = wordOf a i ∧ w (i + 4) = wordOf b i) ∧
        ∀ i, 8 ≤ i → i < 60 → w i = w (i - 8) ^^^
          (if i % 8 = 0 then subWord (rotWord (w (i - 1))) ^^^ rcon (i / 8)
            else if i % 8 = 4 then subWord (w (i - 1)) else w (i - 1))

/-- R170: KEYEXP128 to a loadable slot of the file loads the AES-128 schedule of A, zeros above it, and changes no
other slot. -/
def Obligations.Keyexp128LoadsTheSchedule : Prop :=
  ∀ (s : State) (t : Txn) (n : Nat), s.txn = some t → 1 ≤ n → n < s.nks →
    ∃ e : Slot, Loads s t (exec (.keyexp128 n) s) n e ∧ e.tag = .aes128 ∧
      (∀ r, r ≤ 10 → e.key r = roundKey128 t.command.a r) ∧ ∀ r, 11 ≤ r → r ≤ 14 → e.key r = 0

/-- R171: KEYEXP256 to a loadable slot of the file loads the AES-256 schedule of (A, B) and changes no other slot. -/
def Obligations.Keyexp256LoadsTheSchedule : Prop :=
  ∀ (s : State) (t : Txn) (n : Nat), s.txn = some t → 1 ≤ n → n < s.nks →
    ∃ e : Slot, Loads s t (exec (.keyexp256 n) s) n e ∧ e.tag = .aes256 ∧
      ∀ r, r ≤ 14 → e.key r = roundKey256 t.command.a t.command.b r

/-- R172: RKREAD of a loaded slot returns the round key where IDX is in its schedule. -/
def Obligations.RkreadReturnsTheRoundKey : Prop :=
  ∀ (s : State) (t : Txn) (n r : Nat), s.txn = some t → n < s.nks →
    (((s.slot n).tag = .aes128 ∧ r ≤ 10) ∨ ((s.slot n).tag = .aes256 ∧ r ≤ 14)) →
    Completes s t (exec (.rkread n r) s) .ok ((s.slot n).key r) 0

/-! ## Errors of a SLOT or IDX operand (60_exceptions.md) -/

/-- R255: a SLOT beyond the slot file is answered ERR_SLOT_RANGE; with NKS = 16 it cannot arise. -/
def Obligations.SlotRangeIsAnswered : Prop :=
  (∀ (s : State) (t : Txn) (n : Nat) (i : Instr), s.txn = some t → s.nks ≤ n →
    (i = .keyexp128 n ∨ i = .keyexp256 n ∨ (∃ r, i = .rkread n r) ∨ i = .enc n ∨ i = .crhash n ∨ i = .ccrhash n ∨
      i = .tccrhash n) → Completes s t (exec i s) .slotRange 0 0) ∧
    ∀ (s u : State) (t : Txn) (i : Instr) (r : Response), s.txn = some t → s.nks = 16 → i.wellFormed = true →
      exec i s = .next u → u.response = some r → r.st ≠ .slotRange

/-- R254: KEYEXP to slot 0 is answered ERR_SLOT_READONLY and slot 0 keeps FIXED_RK. -/
def Obligations.SlotZeroIsReadOnly : Prop :=
  ∀ (s : State) (t : Txn) (i : Instr), s.txn = some t → (i = .keyexp128 0 ∨ i = .keyexp256 0) →
    Completes s t (exec i s) .slotReadonly 0 0 ∧
      ∀ u, exec i s = .next u → u.slot 0 = s.slot 0 ∧ ∀ r, (h : r < 11) → (u.slot 0).key r = s.fixedRk[r]

/-- R256: a read of an EMPTY slot of the file is answered ERR_SLOT_EMPTY; slot 0 is never EMPTY. -/
def Obligations.EmptySlotIsAnswered : Prop :=
  (∀ (s : State) (t : Txn) (n : Nat) (i : Instr), s.txn = some t → n < s.nks → (s.slot n).tag = .empty →
    ((∃ r, i = .rkread n r) ∨ i = .enc n ∨ i = .crhash n ∨ i = .ccrhash n ∨ i = .tccrhash n) →
      Completes s t (exec i s) .slotEmpty 0 0) ∧
    ∀ s : State, (s.slot 0).tag ≠ .empty

/-- R257: a hash command on an AES-256 slot is answered ERR_SLOT_VARIANT. -/
def Obligations.SlotVariantIsAnswered : Prop :=
  ∀ (s : State) (t : Txn) (n : Nat) (i : Instr), s.txn = some t → n < s.nks → (s.slot n).tag = .aes256 →
    (i = .crhash n ∨ i = .ccrhash n ∨ i = .tccrhash n) → Completes s t (exec i s) .slotVariant 0 0

/-- R258: an IDX beyond the slot's schedule is answered ERR_INDEX_RANGE. -/
def Obligations.IndexRangeIsAnswered : Prop :=
  ∀ (s : State) (t : Txn) (n r : Nat), s.txn = some t → n < s.nks →
    (((s.slot n).tag = .aes128 ∧ 10 < r) ∨ ((s.slot n).tag = .aes256 ∧ 14 < r)) →
    Completes s t (exec (.rkread n r) s) .indexRange 0 0

/-! ## Encryption and hashes (43_encrypt.md, 44_hash.md) -/

/-- R190, R194: ENC on an AES-128 slot is the initial key addition, nine full rounds and the final round. -/
def Obligations.EncOnAnAes128Slot : Prop :=
  ∀ (s : State) (t : Txn) (n : Nat), s.txn = some t → n < s.nks → (s.slot n).tag = .aes128 →
    let rk := (s.slot n).key
    Completes s t (exec (.enc n) s) .ok
      (aesRoundLast ([1, 2, 3, 4, 5, 6, 7, 8, 9].foldl (fun x r => aesRound x (rk r)) (t.command.a ^^^ rk 0)) (rk 10)) 0

/-- R191, R194: ENC on an AES-256 slot is the initial key addition, thirteen full rounds and the final round. -/
def Obligations.EncOnAnAes256Slot : Prop :=
  ∀ (s : State) (t : Txn) (n : Nat), s.txn = some t → n < s.nks → (s.slot n).tag = .aes256 →
    let rk := (s.slot n).key
    Completes s t (exec (.enc n) s) .ok
      (aesRoundLast ([1, 2, 3, 4, 5, 6, 7, 8, 9, 10, 11, 12, 13].foldl (fun x r => aesRound x (rk r))
        (t.command.a ^^^ rk 0)) (rk 14)) 0

/-- R210, R214: CRHASH on an AES-128 slot returns E(x) ^ x. -/
def Obligations.CrhashReturnsCr : Prop :=
  ∀ (s : State) (t : Txn) (n : Nat), s.txn = some t → n < s.nks → (s.slot n).tag = .aes128 →
    Completes s t (exec (.crhash n) s) .ok (encrypt128 (s.slot n).keys128 t.command.a ^^^ t.command.a) 0

/-- R213, R215: CCRHASH on an AES-128 slot returns E(sigma(x)) ^ sigma(x), sigma written out from R212. -/
def Obligations.CcrhashReturnsCcr : Prop :=
  ∀ (s : State) (t : Txn) (n : Nat), s.txn = some t → n < s.nks → (s.slot n).tag = .aes128 →
    let x := t.command.a
    let y : Block := mk128 (lo x) (hi x ^^^ lo x)
    Completes s t (exec (.ccrhash n) s) .ok (encrypt128 (s.slot n).keys128 y ^^^ y) 0

/-- R213, R216: TCCRHASH on an AES-128 slot returns E(x) ^ E(E(x) ^ t). -/
def Obligations.TccrhashReturnsTccr : Prop :=
  ∀ (s : State) (t : Txn) (n : Nat), s.txn = some t → n < s.nks → (s.slot n).tag = .aes128 →
    let e := encrypt128 (s.slot n).keys128
    Completes s t (exec (.tccrhash n) s) .ok (e t.command.a ^^^ e (e t.command.a ^^^ t.command.b)) 0

/-- R212: the halves of sigma(x), and that sigma and sigma(x) ^ x are permutations; three times sigma is the
identity. -/
def Obligations.SigmaIsAPermutation : Prop :=
  (∀ x : Block, lo (sigma x) = hi x ^^^ lo x ∧ hi (sigma x) = lo x ∧
    sigma x ^^^ x = mk128 (hi x ^^^ lo x) (hi x) ∧ sigma (sigma (sigma x)) = x) ∧
    Function.Bijective sigma ∧ Function.Bijective fun x => sigma x ^^^ x

/-! ## Data layout (20_memory.md) -/

/-- R50: the numeric value is the little-endian sum of the bytes, and the least significant bit is byte 0, bit 0. -/
def Obligations.BytesAreLittleEndian : Prop :=
  ∀ v : Block,
    v.toNat = ((List.range 16).map fun i => (byteOf v i).toNat * 2 ^ (8 * i)).sum ∧
      (∀ i j, i < 16 → j < 8 → (byteOf v i).getLsbD j = v.getLsbD (8 * i + j)) ∧
      v.getLsbD 0 = (byteOf v 0).getLsbD 0

/-- R51, R52, R53: the narrower views regroup the same bits, and the byte sequence carries the value. -/
def Obligations.ViewsRegroupTheSameBits : Prop :=
  ∀ v : Block,
    (∀ j k, j < 4 → k < 4 → wordByte (wordOf v j) k = byteOf v (4 * j + k)) ∧
      (∀ j, j < 8 → elem16 v j = byteOf v (2 * j + 1) ++ byteOf v (2 * j)) ∧
      elem64 v 0 = lo v ∧ elem64 v 1 = hi v ∧ mk128 (hi v) (lo v) = v ∧
      fromWords (wordOf v 0) (wordOf v 1) (wordOf v 2) (wordOf v 3) = v ∧ fromBytes (byteOf v) = v ∧
      blockOfBytes (blockToBytes v) = some v
end

