-- ==== Sys2Proof/Laws/Block.lean ====
section
/-! SUPPORT. What the views of a block give back: bytes, words and halves of a value built from them. -/

namespace Sys2Proof.Machine

theorem extract_append_low {m n : Nat} (x : BitVec m) (y : BitVec n) : (x ++ y).extractLsb' 0 n = y := by
  ext j hj
  simp [BitVec.getLsbD_append, hj, BitVec.getLsbD_eq_getElem]

theorem extract_append_high {m n : Nat} (x : BitVec m) (y : BitVec n) (k : Nat) :
    (x ++ y).extractLsb' (n * (k + 1)) n = x.extractLsb' (n * k) n := by
  ext j hj
  simp only [BitVec.getElem_extractLsb', BitVec.getLsbD_append, Nat.mul_succ]
  rw [if_neg (by omega)]
  congr 1
  omega

theorem extract_zero_full {n : Nat} (x : BitVec n) : x.extractLsb' 0 n = x := by
  ext j hj
  simp

theorem byteOf_fromBytes (b : Nat → Byte) (i : Nat) (h : i < 16) : byteOf (fromBytes b) i = b i := by
  unfold byteOf fromBytes
  rcases Nat.lt_succ_iff_lt_or_eq.mp h with h | rfl
  rotate_left
  · iterate 15 refine (extract_append_high _ _ _).trans ?_
    exact extract_zero_full _
  interval_cases i
  all_goals
    iterate 14 try refine (extract_append_high _ _ _).trans ?_
    exact extract_append_low _ _

theorem wordByte_wordFromBytes (a0 a1 a2 a3 : Byte) (k : Nat) (h : k < 4) :
    wordByte (wordFromBytes a0 a1 a2 a3) k = [a0, a1, a2, a3].getD k 0 := by
  unfold wordByte wordFromBytes
  interval_cases k
  · exact extract_append_low _ _
  · exact (extract_append_high _ _ _).trans (extract_append_low _ _)
  · exact (extract_append_high _ _ _).trans ((extract_append_high _ _ _).trans (extract_append_low _ _))
  · exact (extract_append_high _ _ _).trans ((extract_append_high _ _ _).trans
      ((extract_append_high _ _ _).trans (extract_zero_full _)))

theorem wordOf_fromWords (w0 w1 w2 w3 : Word32) (j : Nat) (h : j < 4) :
    wordOf (fromWords w0 w1 w2 w3) j = [w0, w1, w2, w3].getD j 0 := by
  unfold wordOf fromWords
  interval_cases j
  · exact extract_append_low _ _
  · exact (extract_append_high _ _ _).trans (extract_append_low _ _)
  · exact (extract_append_high _ _ _).trans ((extract_append_high _ _ _).trans (extract_append_low _ _))
  · exact (extract_append_high _ _ _).trans ((extract_append_high _ _ _).trans
      ((extract_append_high _ _ _).trans (extract_zero_full _)))

/-- Byte 4c+k of a block is byte k of its word c (20_memory.md R51, R54). -/
theorem wordByte_wordOf (v : Block) (c k : Nat) (hk : k < 4) : wordByte (wordOf v c) k = byteOf v (4 * c + k) := by
  unfold wordByte wordOf byteOf
  ext j hj
  simp only [BitVec.getElem_extractLsb', BitVec.getLsbD_extractLsb']
  have : 8 * k + j < 32 := by omega
  simp only [this, decide_true, Bool.true_and]
  congr 1
  omega

@[simp] theorem lo_mk128 (h l : Half) : lo (mk128 h l) = l := extract_append_low h l

@[simp] theorem hi_mk128 (h l : Half) : hi (mk128 h l) = h :=
  (extract_append_high h l 0).trans (extract_zero_full h)

theorem mk128_hi_lo (v : Block) : mk128 (hi v) (lo v) = v := by
  unfold hi lo mk128
  ext j hj
  simp only [BitVec.getElem_append, BitVec.getElem_extractLsb']
  split
  · simp [BitVec.getLsbD_eq_getElem, hj]
  · rw [show 64 + (j - 64) = j by omega, BitVec.getLsbD_eq_getElem hj]

/-- Two blocks with the same halves are equal. -/
theorem block_ext_halves {v w : Block} (hh : hi v = hi w) (hl : lo v = lo w) : v = w := by
  rw [← mk128_hi_lo v, ← mk128_hi_lo w, hh, hl]

end Sys2Proof.Machine
end

