-- ==== Sys2Proof/Laws/PerInstr.lean ====
section
/-! SUPPORT. The family EncodedFields: the four fields of a well-formed command's word are its OP, SLOT and IDX, with
RSV = 0 (30_encoding.md R80, R93). -/

namespace Sys2Proof

/-- Bit j of an assembled word: OP below bit 8, then the bits of SLOT from 8 and of IDX from 12 (R80, R91). -/
theorem commandWord_bit (op : Byte) (slot idx : Nat) (j : Nat) (hj : j < 32) :
    (commandWord op slot idx).getLsbD j =
      (op.getLsbD j || (decide (8 ≤ j) && slot.testBit (j - 8)) || (decide (12 ≤ j) && idx.testBit (j - 12))) := by
  unfold commandWord
  simp only [BitVec.getLsbD_or, BitVec.getLsbD_shiftLeft, BitVec.getLsbD_setWidth, BitVec.getLsbD_ofNat, hj,
    decide_true, Bool.true_and]
  rw [show decide (j - 8 < 32) = true from decide_eq_true (by omega),
    show decide (j - 12 < 32) = true from decide_eq_true (by omega),
    show (!decide (j < 8)) = decide (8 ≤ j) by rw [← decide_not]; exact decide_eq_decide.mpr Nat.not_lt,
    show (!decide (j < 12)) = decide (12 ≤ j) by rw [← decide_not]; exact decide_eq_decide.mpr Nat.not_lt]
  simp

/-- The fields of an assembled word (R80, R91). -/
theorem commandWord_fields (op : Byte) (slot idx : Nat) (hs : slot < 16) (hi : idx < 16) :
    opField (commandWord op slot idx) = op ∧ slotField (commandWord op slot idx) = slot ∧
      idxField (commandWord op slot idx) = idx ∧ rsvField (commandWord op slot idx) = 0 := by
  have high : ∀ (n j : Nat), n < 16 → 4 ≤ j → n.testBit j = false := fun n j hn hj =>
    Nat.testBit_lt_two_pow (Nat.lt_of_lt_of_le hn (by simpa using Nat.pow_le_pow_right (n := 2) (by decide) hj))
  have opHigh : ∀ j, 8 ≤ j → op.getLsbD j = false := fun j hj => BitVec.getLsbD_of_ge op j hj
  refine ⟨?_, ?_, ?_, ?_⟩
  · refine BitVec.eq_of_getLsbD_eq fun j hj => ?_
    simp only [opField, BitVec.getLsbD_extractLsb', hj, decide_true, Bool.true_and]
    rw [commandWord_bit _ _ _ _ (by omega)]
    simp [show ¬ 8 ≤ j by omega, show ¬ 12 ≤ j by omega]
  · have : (commandWord op slot idx).extractLsb' 8 4 = BitVec.ofNat 4 slot := by
      refine BitVec.eq_of_getLsbD_eq fun j hj => ?_
      simp only [BitVec.getLsbD_extractLsb', hj, decide_true, Bool.true_and, BitVec.getLsbD_ofNat]
      rw [commandWord_bit _ _ _ _ (by omega), opHigh _ (by omega)]
      simp [show ¬ 12 ≤ 8 + j by omega]
    rw [slotField, this, BitVec.toNat_ofNat, Nat.mod_eq_of_lt hs]
  · have : (commandWord op slot idx).extractLsb' 12 4 = BitVec.ofNat 4 idx := by
      refine BitVec.eq_of_getLsbD_eq fun j hj => ?_
      simp only [BitVec.getLsbD_extractLsb', hj, decide_true, Bool.true_and, BitVec.getLsbD_ofNat]
      rw [commandWord_bit _ _ _ _ (by omega), opHigh _ (by omega), high slot _ hs (by omega)]
      simp
    rw [idxField, this, BitVec.toNat_ofNat, Nat.mod_eq_of_lt hi]
  · refine BitVec.eq_of_getLsbD_eq fun j hj => ?_
    simp only [rsvField, BitVec.getLsbD_extractLsb', hj, decide_true, Bool.true_and]
    rw [commandWord_bit _ _ _ _ (by omega), opHigh _ (by omega), high slot _ hs (by omega), high idx _ hi (by omega)]
    simp

/-- A slot number the check accepts is below 16 (R82). -/
theorem slot_lt {slot : Nat} (h : slotFits slot = true) : slot < 16 := by simpa [slotFits] using h

/-- A round-key index the check accepts is below 16 (R83). -/
theorem idx_lt {idx : Nat} (h : idxFits idx = true) : idx < 16 := by simpa [idxFits] using h

namespace Laws.EncodedFields

/-- The fields of a well-formed command's word. -/
def Statement (i : Instr) : Prop :=
  i.wellFormed = true →
    opField (encode i) = i.opcode ∧ slotField (encode i) = i.slotOf ∧ idxField (encode i) = i.idxOf ∧
      rsvField (encode i) = 0

theorem nop : Statement .nop := fun _ => commandWord_fields _ 0 0 (by decide) (by decide)

theorem idread : Statement .idread := fun _ => commandWord_fields _ 0 0 (by decide) (by decide)

theorem clmul : Statement .clmul := fun _ => commandWord_fields _ 0 0 (by decide) (by decide)

theorem aesenc : Statement .aesenc := fun _ => commandWord_fields _ 0 0 (by decide) (by decide)

theorem aesenclast : Statement .aesenclast := fun _ => commandWord_fields _ 0 0 (by decide) (by decide)

theorem keyexp128 (slot : Nat) : Statement (.keyexp128 slot) := fun h => commandWord_fields _ slot 0 (slot_lt h) (by decide)

theorem keyexp256 (slot : Nat) : Statement (.keyexp256 slot) := fun h => commandWord_fields _ slot 0 (slot_lt h) (by decide)

theorem rkread (slot idx : Nat) : Statement (.rkread slot idx) := fun h =>
  have hb : slotFits slot = true ∧ idxFits idx = true := Bool.and_eq_true_iff.mp h
  commandWord_fields _ slot idx (slot_lt hb.1) (idx_lt hb.2)

theorem enc (slot : Nat) : Statement (.enc slot) := fun h => commandWord_fields _ slot 0 (slot_lt h) (by decide)

theorem crhash (slot : Nat) : Statement (.crhash slot) := fun h => commandWord_fields _ slot 0 (slot_lt h) (by decide)

theorem ccrhash (slot : Nat) : Statement (.ccrhash slot) := fun h => commandWord_fields _ slot 0 (slot_lt h) (by decide)

theorem tccrhash (slot : Nat) : Statement (.tccrhash slot) := fun h => commandWord_fields _ slot 0 (slot_lt h) (by decide)

end Laws.EncodedFields

end Sys2Proof
end

