-- ==== Sys2Proof/Laws/Decode.lean ====
section
/-! SUPPORT. What the decoder can answer, and that the bytes of a word carry it. -/

namespace Sys2Proof

open Sys2Proof.Machine

/-- An OP value has a row of the map exactly if it is one of the twelve (R86, R88). -/
theorem opcodeRow_none {b : Byte} : opcodeRow b = none ↔ b ∉ opValues := by
  simp only [opcodeRow, List.find?_eq_none, opcodeMap, opValues, List.mem_cons, List.not_mem_nil, or_false]
  constructor
  · intro h hb
    rcases hb with rfl | rfl | rfl | rfl | rfl | rfl | rfl | rfl | rfl | rfl | rfl | rfl <;> simp at h
  · rintro h row hr
    rcases hr with rfl | rfl | rfl | rfl | rfl | rfl | rfl | rfl | rfl | rfl | rfl | rfl <;>
      simp <;> rintro rfl <;> simp at h

/-- Everything the decoder can answer (R87): an illegal OP, a nonzero reserved field, or a command with the word's
fields. -/
theorem decodeWord_cases (w : Word32) :
    (opField w ∉ opValues ∧ decodeWord w = .error .illegalOpcode) ∨
      (opField w ∈ opValues ∧ ReservedNonzero w ∧ decodeWord w = .error .reservedField) ∨
      (opField w ∈ opValues ∧ ¬ ReservedNonzero w ∧
        ∃ i, decodeWord w = .ok i ∧ i.opcode = opField w ∧ i.slotOf = slotField w ∧ i.idxOf = idxField w) := by
  by_cases h : opField w ∈ opValues
  · refine .inr ?_
    unfold decodeWord ReservedNonzero
    simp only [h, true_and]
    simp only [opValues, List.mem_cons, List.not_mem_nil, or_false] at h
    by_cases hrsv : rsvField w = 0#16 <;> by_cases hs : slotField w = 0 <;> by_cases hi : idxField w = 0 <;>
      rcases h with h | h | h | h | h | h | h | h | h | h | h | h <;>
      simp [h, opcodeRow, opcodeMap, List.find?, hrsv, hs, hi, Instr.opcode, Instr.slotOf, Instr.idxOf]
  · exact .inl ⟨h, by simp [decodeWord, opcodeRow_none.mpr h]⟩

/-- The four bytes of a word carry it (20_memory.md R53). -/
theorem wordOfBytes_bytesOfWord (w : Word32) (rest : List Byte) : wordOfBytes (bytesOfWord w ++ rest) = some (w, rest) := by
  simp only [bytesOfWord, List.cons_append, List.nil_append, wordOfBytes]
  congr 2
  refine BitVec.eq_of_getLsbD_eq fun j hj => ?_
  simp only [BitVec.getLsbD_append, BitVec.getLsbD_extractLsb']
  by_cases h1 : j < 8
  · simp [h1]
  by_cases h2 : j < 16
  · simp [h1, show j - 8 < 8 by omega, show 8 + (j - 8) = j by omega]
  by_cases h3 : j < 24
  · simp [h1, show ¬ j - 8 < 8 by omega, show j - 8 - 8 < 8 by omega, show 16 + (j - 8 - 8) = j by omega]
  · simp [h1, show ¬ j - 8 < 8 by omega, show ¬ j - 8 - 8 < 8 by omega, show j - 8 - 8 - 8 < 8 by omega,
      show 24 + (j - 8 - 8 - 8) = j by omega]

end Sys2Proof
end

