-- ==== Sys2Proof/Laws/State.lean ====
section
/-! SUPPORT. One lemma for each field and each update of the state, all by rfl, so that no later proof unfolds a record
update. -/

namespace Sys2Proof.Machine

section
variable (s : State) (n k : Nat) (e : Slot) (c : Command) (rest : List Command)

@[simp] theorem setSlot_fixedRk : (s.setSlot n e).fixedRk = s.fixedRk := by cases n <;> rfl
@[simp] theorem setSlot_requesters : (s.setSlot n e).requesters = s.requesters := by cases n <;> rfl
@[simp] theorem setSlot_resetLine : (s.setSlot n e).resetLine = s.resetLine := by cases n <;> rfl
@[simp] theorem setSlot_txn : (s.setSlot n e).txn = s.txn := by cases n <;> rfl
@[simp] theorem setSlot_response : (s.setSlot n e).response = s.response := by cases n <;> rfl
@[simp] theorem setSlot_grants : (s.setSlot n e).grants = s.grants := by cases n <;> rfl
@[simp] theorem setSlot_busyCycles : (s.setSlot n e).busyCycles = s.busyCycles := by cases n <;> rfl
@[simp] theorem setSlot_zero : s.setSlot 0 e = s := rfl
@[simp] theorem setSlot_succ_loadable : (s.setSlot (n + 1) e).loadable = s.loadable.set n e := rfl

@[simp] theorem accepting_fixedRk : (s.accepting k c rest).fixedRk = s.fixedRk := rfl
@[simp] theorem accepting_loadable : (s.accepting k c rest).loadable = s.loadable := rfl
@[simp] theorem accepting_requesters : (s.accepting k c rest).requesters = s.requesters.set k rest := rfl
@[simp] theorem accepting_resetLine : (s.accepting k c rest).resetLine = s.resetLine := rfl
@[simp] theorem accepting_txn : (s.accepting k c rest).txn = some ⟨k, c⟩ := rfl
@[simp] theorem accepting_response : (s.accepting k c rest).response = none := rfl
@[simp] theorem accepting_grants : (s.accepting k c rest).grants = s.grants + 1 := rfl
@[simp] theorem accepting_busyCycles : (s.accepting k c rest).busyCycles = s.busyCycles := rfl

@[simp] theorem idle_fixedRk : s.idle.fixedRk = s.fixedRk := rfl
@[simp] theorem idle_loadable : s.idle.loadable = s.loadable := rfl
@[simp] theorem idle_requesters : s.idle.requesters = s.requesters := rfl
@[simp] theorem idle_resetLine : s.idle.resetLine = s.resetLine := rfl
@[simp] theorem idle_txn : s.idle.txn = none := rfl
@[simp] theorem idle_response : s.idle.response = none := rfl
@[simp] theorem idle_grants : s.idle.grants = s.grants := rfl
@[simp] theorem idle_busyCycles : s.idle.busyCycles = s.busyCycles := rfl

@[simp] theorem resetEvent_fixedRk : s.resetEvent.fixedRk = s.fixedRk := rfl
@[simp] theorem resetEvent_loadable : s.resetEvent.loadable = List.replicate s.loadable.length Slot.emptySlot := rfl
@[simp] theorem resetEvent_requesters : s.resetEvent.requesters = s.requesters := rfl
@[simp] theorem resetEvent_resetLine : s.resetEvent.resetLine = .released := rfl
@[simp] theorem resetEvent_txn : s.resetEvent.txn = none := rfl
@[simp] theorem resetEvent_response : s.resetEvent.response = none := rfl
@[simp] theorem resetEvent_grants : s.resetEvent.grants = s.grants := rfl
@[simp] theorem resetEvent_busyCycles : s.resetEvent.busyCycles = s.busyCycles := rfl

end

section
variable (s : State) (w : Option (Nat × Slot)) (t : Txn) (e : Effect)

@[simp] theorem commit_none : s.commit none = s := rfl
@[simp] theorem commit_some (n : Nat) (x : Slot) : s.commit (some (n, x)) = s.setSlot n x := rfl
@[simp] theorem commit_fixedRk : (s.commit w).fixedRk = s.fixedRk := by cases w <;> simp [State.commit]
@[simp] theorem commit_requesters : (s.commit w).requesters = s.requesters := by cases w <;> simp [State.commit]
@[simp] theorem commit_resetLine : (s.commit w).resetLine = s.resetLine := by cases w <;> simp [State.commit]
@[simp] theorem commit_grants : (s.commit w).grants = s.grants := by cases w <;> simp [State.commit]

@[simp] theorem finish_fixedRk : (s.finish t e).fixedRk = s.fixedRk := commit_fixedRk s e.write
@[simp] theorem finish_loadable : (s.finish t e).loadable = (s.commit e.write).loadable := rfl
@[simp] theorem finish_requesters : (s.finish t e).requesters = s.requesters := commit_requesters s e.write
@[simp] theorem finish_resetLine : (s.finish t e).resetLine = s.resetLine := commit_resetLine s e.write
@[simp] theorem finish_txn : (s.finish t e).txn = none := rfl
@[simp] theorem finish_response : (s.finish t e).response = some ⟨t.requester, e.status, e.r0, e.r1⟩ := rfl
@[simp] theorem finish_grants : (s.finish t e).grants = s.grants := commit_grants s e.write
@[simp] theorem finish_busyCycles :
    (s.finish t e).busyCycles = s.busyCycles + s.latencyOf t.command.cmd e.status := rfl

end

section
variable (s : State) (nbits w : Nat)

@[simp] theorem withFetchWord_fixedRk : (s.withFetchWord nbits w).fixedRk = s.fixedRk := rfl
@[simp] theorem withFetchWord_loadable : (s.withFetchWord nbits w).loadable = s.loadable := rfl
@[simp] theorem withFetchWord_requesters :
    (s.withFetchWord nbits w).requesters = [[⟨BitVec.ofNat 32 (w % 2 ^ nbits), 0, 0⟩]] := rfl
@[simp] theorem withFetchWord_resetLine : (s.withFetchWord nbits w).resetLine = .released := rfl
@[simp] theorem withFetchWord_txn : (s.withFetchWord nbits w).txn = s.txn := rfl
@[simp] theorem withFetchWord_grants : (s.withFetchWord nbits w).grants = s.grants := rfl

end

section
variable (r0 r1 : Block) (st : Status) (n : Nat) (e : Slot)

@[simp] theorem respond_status : (respond r0 r1).status = .ok := rfl
@[simp] theorem respond_r0 : (respond r0 r1).r0 = r0 := rfl
@[simp] theorem respond_r1 : (respond r0 r1).r1 = r1 := rfl
@[simp] theorem respond_write : (respond r0 r1).write = none := rfl
@[simp] theorem raise_status : (raise st).status = st := rfl
@[simp] theorem raise_r0 : (raise st).r0 = 0 := rfl
@[simp] theorem raise_r1 : (raise st).r1 = 0 := rfl
@[simp] theorem raise_write : (raise st).write = none := rfl
@[simp] theorem loadSlot_status : (loadSlot n e).status = .ok := rfl
@[simp] theorem loadSlot_r0 : (loadSlot n e).r0 = 0 := rfl
@[simp] theorem loadSlot_r1 : (loadSlot n e).r1 = 0 := rfl
@[simp] theorem loadSlot_write : (loadSlot n e).write = some (n, e) := rfl

end

end Sys2Proof.Machine
end

