-- ==== Sys2Proof/Laws/Ops.lean ====
section
/-! SUPPORT. One lemma for each shared operation that says everything it can do: reading and writing a slot, the checks
of a SLOT operand, completing a transaction, accepting a command. -/

namespace Sys2Proof.Machine

/-! ## Key slots -/

theorem nks_pos (s : State) : 1 ≤ s.nks := Nat.succ_le_succ (Nat.zero_le _)

@[simp] theorem slot_zero (s : State) : s.slot 0 = Slot.ofAes128 s.fixedRk := rfl

theorem slot_succ (s : State) (n : Nat) : s.slot (n + 1) = s.loadable.getD n Slot.emptySlot := rfl

/-- A number beyond the slot file reads EMPTY. -/
theorem slot_out_of_range {s : State} {n : Nat} (h : s.nks ≤ n) : s.slot n = Slot.emptySlot := by
  cases n with
  | zero => exact absurd h (by simp [State.nks])
  | succ m => simp [slot_succ, List.getD, List.getElem?_eq_none (Nat.le_of_succ_le_succ h)]

/-- A slot of the file other than slot 0 is an entry of the loadable list. -/
theorem slot_mem_loadable {s : State} {n : Nat} (h0 : n ≠ 0) (h : n < s.nks) : s.slot n ∈ s.loadable := by
  obtain ⟨m, rfl⟩ := Nat.exists_eq_succ_of_ne_zero h0
  have hm : m < s.loadable.length := Nat.lt_of_succ_lt_succ h
  simp [slot_succ, List.getD, List.getElem?_eq_getElem hm]

@[simp] theorem setSlot_nks (s : State) (n : Nat) (e : Slot) : (s.setSlot n e).nks = s.nks := by
  cases n <;> simp [State.nks]

/-- A loadable slot of the file reads as it was written. -/
theorem slot_setSlot_same (s : State) {n : Nat} (e : Slot) (h0 : n ≠ 0) (h : n < s.nks) : (s.setSlot n e).slot n = e := by
  obtain ⟨m, rfl⟩ := Nat.exists_eq_succ_of_ne_zero h0
  have hm : m < s.loadable.length := Nat.lt_of_succ_lt_succ h
  simp [slot_succ, List.getD, hm]

/-- A slot write changes no other slot. -/
theorem slot_setSlot_other (s : State) {n m : Nat} (e : Slot) (h : m ≠ n) : (s.setSlot n e).slot m = s.slot m := by
  cases n with
  | zero => rfl
  | succ n =>
    cases m with
    | zero => simp
    | succ m => simp [slot_succ, List.getD, List.getElem?_set_ne (fun hh : n = m => h (hh ▸ rfl))]

/-- States with the same FIXED_RK and loadable slots have the same slot file. -/
theorem slot_congr {s t : State} (hf : t.fixedRk = s.fixedRk) (hl : t.loadable = s.loadable) (n : Nat) :
    t.slot n = s.slot n := by
  cases n with
  | zero => simp [hf]
  | succ m => simp [slot_succ, hl]

theorem nks_congr {s t : State} (hl : t.loadable = s.loadable) : t.nks = s.nks := by simp [State.nks, hl]

theorem ofAes128_tag (rk : Vector Block 11) : (Slot.ofAes128 rk).tag = .aes128 := rfl

theorem ofAes256_tag (rk : Vector Block 15) : (Slot.ofAes256 rk).tag = .aes256 := rfl

theorem key_of_lt (e : Slot) {r : Nat} (h : r < 15) : e.key r = e.rk[r] := by simp [Slot.key, h]

theorem key_ofAes128_low (rk : Vector Block 11) {r : Nat} (h : r < 11) : (Slot.ofAes128 rk).key r = rk[r] := by
  rw [key_of_lt _ (by omega)]
  exact Vector.getElem_append_left h

theorem key_ofAes128_high (rk : Vector Block 11) {r : Nat} (h : 11 ≤ r) : (Slot.ofAes128 rk).key r = 0 := by
  by_cases hr : r < 15
  · rw [key_of_lt _ hr]
    exact (Vector.getElem_append_right (n := 11) (m := 4) (by omega) h).trans (by simp)
  · simp [Slot.key, hr]

@[simp] theorem keys128_ofAes128 (rk : Vector Block 11) : (Slot.ofAes128 rk).keys128 = rk := by
  refine Vector.ext fun r hr => ?_
  simp only [Slot.keys128, Vector.getElem_ofFn]
  exact Vector.getElem_append_left hr

/-! ## The checks of a SLOT operand -/

theorem withSlot_cases (s : State) (n : Nat) (e : Effect) :
    (s.nks ≤ n ∧ withSlot s n e = raise .slotRange) ∨ (n < s.nks ∧ withSlot s n e = e) := by
  unfold withSlot
  split
  · exact .inl ⟨‹_›, rfl⟩
  · exact .inr ⟨by omega, rfl⟩

theorem withLoadable_cases (s : State) (n : Nat) (e : Effect) :
    (s.nks ≤ n ∧ withLoadable s n e = raise .slotRange) ∨ (n = 0 ∧ withLoadable s n e = raise .slotReadonly) ∨
      (n ≠ 0 ∧ n < s.nks ∧ withLoadable s n e = e) := by
  unfold withLoadable
  rcases withSlot_cases s n (if n = 0 then raise .slotReadonly else e) with ⟨h, he⟩ | ⟨h, he⟩
  · exact .inl ⟨h, he⟩
  · by_cases h0 : n = 0
    · exact .inr (.inl ⟨h0, by rw [he, if_pos h0]⟩)
    · exact .inr (.inr ⟨h0, h, by rw [he, if_neg h0]⟩)

theorem withSchedule_cases (s : State) (n : Nat) (f : Slot → Effect) :
    (s.nks ≤ n ∧ withSchedule s n f = raise .slotRange) ∨
      (n < s.nks ∧ (s.slot n).tag = .empty ∧ withSchedule s n f = raise .slotEmpty) ∨
      (n < s.nks ∧ (s.slot n).tag ≠ .empty ∧ withSchedule s n f = f (s.slot n)) := by
  unfold withSchedule
  rcases withSlot_cases s n (if (s.slot n).tag = .empty then raise .slotEmpty else f (s.slot n)) with ⟨h, he⟩ | ⟨h, he⟩
  · exact .inl ⟨h, he⟩
  · by_cases ht : (s.slot n).tag = .empty
    · exact .inr (.inl ⟨h, ht, by rw [he, if_pos ht]⟩)
    · exact .inr (.inr ⟨h, ht, by rw [he, if_neg ht]⟩)

theorem withSchedule128_cases (s : State) (n : Nat) (f : Vector Block 11 → Effect) :
    (s.nks ≤ n ∧ withSchedule128 s n f = raise .slotRange) ∨
      (n < s.nks ∧ (s.slot n).tag = .empty ∧ withSchedule128 s n f = raise .slotEmpty) ∨
      (n < s.nks ∧ (s.slot n).tag = .aes256 ∧ withSchedule128 s n f = raise .slotVariant) ∨
      (n < s.nks ∧ (s.slot n).tag = .aes128 ∧ withSchedule128 s n f = f (s.slot n).keys128) := by
  unfold withSchedule128
  rcases withSchedule_cases s n (fun e => if e.tag = .aes128 then f e.keys128 else raise .slotVariant) with
    ⟨h, he⟩ | ⟨h, ht, he⟩ | ⟨h, ht, he⟩
  · exact .inl ⟨h, he⟩
  · exact .inr (.inl ⟨h, ht, he⟩)
  · cases h2 : (s.slot n).tag with
    | empty => exact absurd h2 ht
    | aes128 => exact .inr (.inr (.inr ⟨h, rfl, by rw [he, if_pos h2]⟩))
    | aes256 => exact .inr (.inr (.inl ⟨h, rfl, by rw [he, if_neg (by simp [h2])]⟩))

/-! ## Completing a transaction -/

theorem runCommand_some {s : State} {t : Txn} (h : s.txn = some t) (f : Command → Effect) :
    s.runCommand f = .next (s.finish t (f t.command)) := by simp [State.runCommand, h]

/-- Everything a meaning can do: a next state, in which the transaction, if there is one, has completed. -/
theorem runCommand_cases {s u : State} {f : Command → Effect} (h : s.runCommand f = .next u) :
    (s.txn = none ∧ u = s) ∨ ∃ t, s.txn = some t ∧ u = s.finish t (f t.command) := by
  unfold State.runCommand at h
  split at h
  · next hn => exact .inl ⟨hn, by cases h; rfl⟩
  · next t ht => exact .inr ⟨t, ht, by cases h; rfl⟩

theorem runCommand_answers (s : State) (f : Command → Effect) : Answers (s.runCommand f) := by
  unfold State.runCommand
  split <;> exact ⟨_, rfl⟩

theorem finish_responds (s : State) (t : Txn) (e : Effect) : Responds s t (s.finish t e) e.status e.r0 e.r1 :=
  ⟨rfl, finish_fixedRk s t e, finish_requesters s t e, finish_resetLine s t e, rfl, finish_grants s t e, rfl⟩

@[simp] theorem commit_nks (s : State) (w : Option (Nat × Slot)) : (s.commit w).nks = s.nks := by
  cases w <;> simp [State.commit]

@[simp] theorem finish_nks (s : State) (t : Txn) (e : Effect) : (s.finish t e).nks = s.nks :=
  commit_nks s e.write

theorem finish_slot (s : State) (t : Txn) (e : Effect) (n : Nat) : (s.finish t e).slot n = (s.commit e.write).slot n :=
  slot_congr (by simp) rfl n

/-- A rule that writes no slot completes with every slot unchanged. -/
theorem completes_of_effect {s : State} {t : Txn} {f : Command → Effect} {e : Effect} (h : s.txn = some t)
    (he : f t.command = e) (hw : e.write = none) : Completes s t (s.runCommand f) e.status e.r0 e.r1 := by
  refine ⟨s.finish t e, ?_, finish_responds s t e, ?_⟩
  · rw [runCommand_some h, he]
  · simp [hw]

/-- A rule that loads a loadable slot of the file completes with that slot written and no other changed. -/
theorem loads_of_effect {s : State} {t : Txn} {f : Command → Effect} {n : Nat} {e : Slot} (h : s.txn = some t)
    (he : f t.command = loadSlot n e) (h0 : n ≠ 0) (hn : n < s.nks) : Loads s t (s.runCommand f) n e := by
  refine ⟨s.finish t (loadSlot n e), ?_, finish_responds s t _, finish_nks s t _, ?_, fun m hm => ?_⟩
  · rw [runCommand_some h, he]
  · rw [finish_slot]; exact slot_setSlot_same s e h0 hn
  · rw [finish_slot]; exact slot_setSlot_other s e hm

/-! ## The command port -/

theorem mem_waiting {s : State} {k : Nat} : k ∈ s.waiting ↔ s.queue k ≠ [] := by
  unfold State.waiting
  rw [List.mem_filter, List.mem_range]
  constructor
  · rintro ⟨_, h⟩ h0
    simp [h0] at h
  · intro h
    refine ⟨?_, by simpa using h⟩
    by_contra hk
    exact h (by simp [State.queue, List.getD, List.getElem?_eq_none (Nat.le_of_not_lt hk)])

/-- Arbitration grants a requester with a command waiting, and none only where none has. -/
theorem granted_spec (s : State) : (s.granted = none ∧ s.waiting = []) ∨ ∃ k, s.granted = some k ∧ k ∈ s.waiting := by
  unfold State.granted
  split
  · next h => exact .inl ⟨rfl, h⟩
  · next k h => exact .inr ⟨k, rfl, by simp [h]⟩
  · next h0 _ =>
    refine .inr ⟨_, rfl, ?_⟩
    have hpos : 0 < s.waiting.length := List.length_pos_of_ne_nil h0
    have hlt := Nat.mod_lt (Config.arbitration s.grants) hpos
    simp [List.getD, List.getElem?_eq_getElem hlt]

theorem acceptFrom_spec {s s' : State} {k : Nat} {t : Txn} (h : s.acceptFrom k = some (t, s')) :
    ∃ c rest, s.queue k = c :: rest ∧ t = ⟨k, c⟩ ∧ s' = s.accepting k c rest := by
  unfold State.acceptFrom at h
  split at h
  · cases h
  · next c rest hq => cases h; exact ⟨c, rest, hq, rfl, rfl⟩

/-- Everything accepting can do: nothing where nothing waits, else some waiting requester's oldest command is taken. -/
theorem accept_spec (s : State) : (s.accept = none ∧ s.waiting = []) ∨
    ∃ k c rest, s.granted = some k ∧ s.queue k = c :: rest ∧ s.accept = some (⟨k, c⟩, s.accepting k c rest) := by
  rcases granted_spec s with ⟨hg, hw⟩ | ⟨k, hg, hk⟩
  · exact .inl ⟨by simp [State.accept, hg], hw⟩
  · cases hq : s.queue k with
    | nil => exact absurd hq (mem_waiting.mp hk)
    | cons c rest => exact .inr ⟨k, c, rest, hg, hq, by simp [State.accept, hg, State.acceptFrom, hq]⟩

theorem accept_some {s s' : State} {t : Txn} (h : s.accept = some (t, s')) :
    ∃ k c rest, s.queue k = c :: rest ∧ t = ⟨k, c⟩ ∧ s' = s.accepting k c rest := by
  rcases accept_spec s with ⟨hn, _⟩ | ⟨k, c, rest, _, hq, ha⟩
  · rw [hn] at h; cases h
  · rw [ha] at h; cases h; exact ⟨k, c, rest, hq, rfl, rfl⟩

end Sys2Proof.Machine
end

