-- ==== Sys2Proof/Laws/Step.lean ====
section
/-! SUPPORT. The inversion lemmas of `exec` and `step`: what a command can ask for, and everything one step can do. -/

namespace Sys2Proof.Machine

/-- What a command's rule asks for, from the state and the captured operands: the body of each meaning. -/
def ruleOf (i : Instr) (s : State) (c : Command) : Effect :=
  match i with
  | .nop => respond 0 0
  | .idread => respond s.idr 0
  | .clmul => respond (clmul128 c.a c.b).1 (clmul128 c.a c.b).2
  | .aesenc => respond (aesRound c.a c.b) 0
  | .aesenclast => respond (aesRoundLast c.a c.b) 0
  | .keyexp128 n => withLoadable s n (loadSlot n (Slot.ofAes128 (expand128 c.a)))
  | .keyexp256 n => withLoadable s n (loadSlot n (Slot.ofAes256 (expand256 c.a c.b)))
  | .rkread n r => withSchedule s n (fun e => readKey e r)
  | .enc n => withSchedule s n (fun e => encryptSlot e c.a)
  | .crhash n => withSchedule128 s n (fun rk => respond (crHash rk c.b c.a) 0)
  | .ccrhash n => withSchedule128 s n (fun rk => respond (ccrHash rk c.b c.a) 0)
  | .tccrhash n => withSchedule128 s n (fun rk => respond (tccrHash rk c.b c.a) 0)

/-- Every meaning runs its rule on the transaction in progress. -/
theorem exec_eq (i : Instr) (s : State) : exec i s = s.runCommand (ruleOf i s) := by cases i <;> rfl

theorem exec_some (i : Instr) {s : State} {t : Txn} (h : s.txn = some t) :
    exec i s = .next (s.finish t (ruleOf i s t.command)) := by rw [exec_eq, runCommand_some h]

/-- Everything a command can do. -/
theorem exec_cases {i : Instr} {s u : State} (h : exec i s = .next u) :
    (s.txn = none ∧ u = s) ∨ ∃ t, s.txn = some t ∧ u = s.finish t (ruleOf i s t.command) :=
  runCommand_cases (by rw [← exec_eq]; exact h)

theorem encryptSlot_write (e : Slot) (x : Block) : (encryptSlot e x).write = none := by
  unfold encryptSlot
  split <;> rfl

/-- Everything reading a round key can do. -/
theorem readKey_cases (e : Slot) (r : Nat) :
    (lastIndex e.tag < r ∧ readKey e r = raise .indexRange) ∨
      (r ≤ lastIndex e.tag ∧ readKey e r = respond (e.key r) 0) := by
  unfold readKey
  split
  · exact .inl ⟨‹_›, rfl⟩
  · exact .inr ⟨by omega, rfl⟩

theorem readKey_write (e : Slot) (r : Nat) : (readKey e r).write = none := by
  rcases readKey_cases e r with ⟨_, h⟩ | ⟨_, h⟩ <;> rw [h] <;> rfl

/-- Encryption under a loaded slot completes with status OK. -/
theorem encryptSlot_status {e : Slot} (x : Block) (h : e.tag ≠ .empty) : (encryptSlot e x).status = .ok := by
  unfold encryptSlot
  split
  · exact absurd ‹_› h
  · rfl
  · rfl

/-- A rule over a read schedule writes no slot if what it does with the schedule writes none. -/
theorem withSchedule_write (s : State) (n : Nat) {f : Slot → Effect} (hf : ∀ e, (f e).write = none) :
    (withSchedule s n f).write = none := by
  rcases withSchedule_cases s n f with ⟨_, h⟩ | ⟨_, _, h⟩ | ⟨_, _, h⟩ <;> rw [h]
  · rfl
  · rfl
  · exact hf _

theorem withSchedule128_write (s : State) (n : Nat) {f : Vector Block 11 → Effect} (hf : ∀ rk, (f rk).write = none) :
    (withSchedule128 s n f).write = none :=
  withSchedule_write s n fun e => by split; exacts [hf _, rfl]

/-- A rule writes no slot, or it is a KEYEXP command's that loads a loadable slot of the file. -/
theorem ruleOf_write (i : Instr) (s : State) (c : Command) : (ruleOf i s c).write = none ∨
    ∃ n e, (ruleOf i s c) = loadSlot n e ∧ n ≠ 0 ∧ n < s.nks ∧
      ((i = .keyexp128 n ∧ e = Slot.ofAes128 (expand128 c.a)) ∨
        (i = .keyexp256 n ∧ e = Slot.ofAes256 (expand256 c.a c.b))) := by
  cases i with
  | nop => exact .inl rfl
  | idread => exact .inl rfl
  | clmul => exact .inl rfl
  | aesenc => exact .inl rfl
  | aesenclast => exact .inl rfl
  | keyexp128 n =>
    rcases withLoadable_cases s n (loadSlot n (Slot.ofAes128 (expand128 c.a))) with ⟨_, h⟩ | ⟨_, h⟩ | ⟨h0, hn, h⟩
    · exact .inl (by simp [ruleOf, h])
    · exact .inl (by simp [ruleOf, h])
    · exact .inr ⟨n, _, h, h0, hn, .inl ⟨rfl, rfl⟩⟩
  | keyexp256 n =>
    rcases withLoadable_cases s n (loadSlot n (Slot.ofAes256 (expand256 c.a c.b))) with ⟨_, h⟩ | ⟨_, h⟩ | ⟨h0, hn, h⟩
    · exact .inl (by simp [ruleOf, h])
    · exact .inl (by simp [ruleOf, h])
    · exact .inr ⟨n, _, h, h0, hn, .inr ⟨rfl, rfl⟩⟩
  | rkread n r =>
    exact .inl (withSchedule_write s n fun e => readKey_write e r)
  | enc n => exact .inl (withSchedule_write s n fun e => encryptSlot_write e c.a)
  | crhash n => exact .inl (withSchedule128_write s n fun _ => rfl)
  | ccrhash n => exact .inl (withSchedule128_write s n fun _ => rfl)
  | tccrhash n => exact .inl (withSchedule128_write s n fun _ => rfl)

/-- A command whose rule writes no slot completes with what the rule asks for. -/
theorem exec_completes (i : Instr) {s : State} {t : Txn} {e : Effect} (h : s.txn = some t)
    (he : ruleOf i s t.command = e) (hw : e.write = none) : Completes s t (exec i s) e.status e.r0 e.r1 := by
  rw [exec_eq]
  exact completes_of_effect h he hw

/-- A command whose rule loads a loadable slot of the file completes with that slot written. -/
theorem exec_loads (i : Instr) {s : State} {t : Txn} {n : Nat} {e : Slot} (h : s.txn = some t)
    (he : ruleOf i s t.command = loadSlot n e) (h0 : n ≠ 0) (hn : n < s.nks) : Loads s t (exec i s) n e := by
  rw [exec_eq]
  exact loads_of_effect h he h0 hn

/-- What a step does with the command it has accepted. -/
def effectOfWord (s : State) (c : Command) : Effect :=
  match decodeWord c.cmd with
  | .ok i => ruleOf i s c
  | .error e => raise (errorOfWord e)

/-- Everything one step can do: a reset event, an abandoned command, an idle port, or one accepted command completed. -/
theorem step_cases (s : State) :
    (s.resetLine = .betweenCommands ∧ step s = .next s.resetEvent) ∨
      (s.resetLine = .duringCommand ∧ step s = .next s.abandonAndReset) ∨
      (s.resetLine = .released ∧ s.accept = none ∧ step s = .next s.idle) ∨
      ∃ t s', s.resetLine = .released ∧ s.accept = some (t, s') ∧ s'.txn = some t ∧
        step s = .next (s'.finish t (effectOfWord s' t.command)) := by
  cases hr : s.resetLine with
  | betweenCommands => exact .inl ⟨rfl, by simp [step, hr]⟩
  | duringCommand => exact .inr (.inl ⟨rfl, by simp [step, hr]⟩)
  | released =>
    refine .inr (.inr ?_)
    cases ha : s.accept with
    | none => exact .inl ⟨rfl, rfl, by simp [step, hr, ha]⟩
    | some p =>
      obtain ⟨t, s'⟩ := p
      obtain ⟨k, c, rest, _, rfl, rfl⟩ := accept_some ha
      refine .inr ⟨_, _, rfl, rfl, rfl, ?_⟩
      cases hd : decodeWord c.cmd with
      | ok i => simp [step, hr, ha, hd, effectOfWord, exec_some i (accepting_txn s k c rest)]
      | error e => simp [step, hr, ha, hd, effectOfWord, rejectWord, runCommand_some (accepting_txn s k c rest)]

/-- A step that accepts a command completes it. -/
theorem step_of_accept {s s' : State} {t : Txn} (hr : s.resetLine = .released) (ha : s.accept = some (t, s')) :
    s'.txn = some t ∧ step s = .next (s'.finish t (effectOfWord s' t.command)) := by
  rcases step_cases s with ⟨h, _⟩ | ⟨h, _⟩ | ⟨_, h, _⟩ | ⟨t', u, _, h, ht, hs⟩
  · rw [hr] at h; cases h
  · rw [hr] at h; cases h
  · rw [ha] at h; cases h
  · rw [ha] at h; cases h; exact ⟨ht, hs⟩

end Sys2Proof.Machine
end

