-- ==== Sys2Proof/Machine/Assembler.lean ====
section
/-! DEFINITION. Assembler syntax and pseudo-instructions (30_encoding.md R91, R92): what a requester writes, one command
a line, and the command it presents. No step of the machine reads this file. -/

namespace Sys2Proof.Machine

/-- Where a mnemonic comes from: an OP value of the opcode map, or a pseudo-instruction, which fixes SLOT = 0. -/
inductive AsmHead where
  | command (op : Byte)
  | onFixedSlot (op : Byte)
  deriving DecidableEq, Repr

/-- The mnemonics of R86 and the pseudo-instructions of R92. -/
def asmHeads : List (String × AsmHead) :=
  [ ("NOP", .command 0x00), ("IDREAD", .command 0x01), ("CLMUL", .command 0x10), ("AESENC", .command 0x20),
    ("AESENCLAST", .command 0x21), ("KEYEXP128", .command 0x30), ("KEYEXP256", .command 0x31),
    ("RKREAD", .command 0x32), ("ENC", .command 0x40), ("CRHASH", .command 0x50), ("CCRHASH", .command 0x51),
    ("TCCRHASH", .command 0x52), ("FIXENC", .onFixedSlot 0x40), ("AESHASH_CR", .onFixedSlot 0x50),
    ("AESHASH_CCR", .onFixedSlot 0x51), ("AESHASH_TCCR", .onFixedSlot 0x52), ("FIXRK", .onFixedSlot 0x32) ]

/-- The operands of a line; an absent one means 0 (R91). -/
structure AsmOperands where
  slot : Option Nat
  idx : Option Nat
  a : Option Block
  b : Option Block
  deriving DecidableEq, Repr

/-- The characters before the comment sign (R91). -/
def beforeComment (line : List Char) : List Char := line.takeWhile (· != ';')

/-- The words of a line, separated by blanks; `word` is the word read so far, its last character first. -/
def splitWords (word : List Char) : List Char → List (List Char)
  | [] => if word.isEmpty then [] else [word.reverse]
  | c :: rest =>
    if c == ' ' || c == '\t' then
      if word.isEmpty then splitWords [] rest else word.reverse :: splitWords [] rest
    else splitWords (c :: word) rest

/-- The digits of a `<lit128>` (R91) in order, so that a digit's place is its value; the decimal ones come first. -/
def hexDigits : List Char := "0123456789ABCDEF".toList

/-- The value of a digit, a letter in either case. -/
def digitValue (c : Char) : Option Nat := hexDigits.findIdx? (· == c.toUpper)

/-- A number in the given base, after the digits already read; every character must be a digit of the base. -/
def numberFrom (base value : Nat) : List Char → Option Nat
  | [] => some value
  | c :: rest =>
    match digitValue c with
    | some d => if d < base then numberFrom base (value * base + d) rest else none
    | none => none

/-- A nonempty number below a bound. -/
def number (base bound : Nat) (digits : List Char) : Option Nat :=
  if digits.isEmpty then none
  else
    match numberFrom base 0 digits with
    | some v => if v < bound then some v else none
    | none => none

/-- `<lit128>`: a hexadecimal `to_u128` literal (00_scope.md R13, 30_encoding.md R91). -/
def literal128 : List Char → Option Block
  | '0' :: 'x' :: digits => (number 16 (2 ^ 128) digits).map (BitVec.ofNat 128)
  | _ => none

/-- One operand word added to the operands read so far; an operand given twice is no line (log entry 7). -/
def addOperand (o : AsmOperands) : List Char → Option AsmOperands
  | 's' :: digits => if o.slot.isSome then none else (number 10 16 digits).map (fun n => { o with slot := some n })
  | '#' :: digits => if o.idx.isSome then none else (number 10 16 digits).map (fun n => { o with idx := some n })
  | 'A' :: '=' :: lit => if o.a.isSome then none else (literal128 lit).map (fun v => { o with a := some v })
  | 'B' :: '=' :: lit => if o.b.isSome then none else (literal128 lit).map (fun v => { o with b := some v })
  | _ => none

/-- All operand words of a line. -/
def addOperands (o : AsmOperands) : List (List Char) → Option AsmOperands
  | [] => some o
  | w :: rest =>
    match addOperand o w with
    | some o' => addOperands o' rest
    | none => none

/-- The command of a head and its operands: `OP | (n << 8) | (r << 12)`, A and B, an omitted one 0 (R91). A
pseudo-instruction has no slot operand (R92). -/
def commandOf (h : AsmHead) (o : AsmOperands) : Option Command :=
  match h with
  | .command op => some ⟨commandWord op (o.slot.getD 0) (o.idx.getD 0), o.a.getD 0, o.b.getD 0⟩
  | .onFixedSlot op =>
    if o.slot.isSome then none else some ⟨commandWord op 0 (o.idx.getD 0), o.a.getD 0, o.b.getD 0⟩

/-- The command of one assembler line, if it is one (R91, R92); a line with no mnemonic presents no command. -/
def assemble (line : String) : Option Command :=
  match splitWords [] (beforeComment line.toList) with
  | [] => none
  | name :: operands =>
    match asmHeads.find? (fun h => h.1.toList == name), addOperands ⟨none, none, none, none⟩ operands with
    | some (_, h), some o => commandOf h o
    | _, _ => none

end Sys2Proof.Machine
end

