-- ==== Sys2Proof/Tests/Slice0.lean ====
section
/-! SUPPORT. The model's own tests, each about one step or one decoded word, with the expected result taken from spec/
(95_test_vectors.md and the rules' worked examples), and a witness for the hypotheses of every statement. -/

namespace Sys2Proof.Tests

-- The theorems below are evaluated by the kernel, one after another: in parallel each would hold a thread of its own.
set_option Elab.async false

open Sys2Proof.Machine

/-! ## Ill-formed commands (WellFormed) -/

theorem test_slot_16_does_not_fit : slotFits 15 = true ∧ slotFits 16 = false := by decide

theorem test_idx_16_does_not_fit : idxFits 15 = true ∧ idxFits 16 = false := by decide

theorem test_ill_formed_slot_is_refused :
    (Instr.keyexp128 16).wellFormed = false ∧ (Instr.keyexp256 16).wellFormed = false ∧
      (Instr.rkread 16 0).wellFormed = false ∧ (Instr.enc 16).wellFormed = false ∧
      (Instr.crhash 16).wellFormed = false ∧ (Instr.ccrhash 16).wellFormed = false ∧
      (Instr.tccrhash 16).wellFormed = false := by decide

theorem test_ill_formed_idx_is_refused : (Instr.rkread 0 16).wellFormed = false := by decide

/-! ## Words written out from the encoding (30_encoding.md R80, R86): RSV, IDX, SLOT, OP -/

theorem test_decode_nop : decodeWord 0b0000000000000000_0000_0000_00000000 = .ok .nop := by decide

theorem test_decode_idread : decodeWord 0b0000000000000000_0000_0000_00000001 = .ok .idread := by decide

theorem test_decode_clmul : decodeWord 0b0000000000000000_0000_0000_00010000 = .ok .clmul := by decide

theorem test_decode_aesenc : decodeWord 0b0000000000000000_0000_0000_00100000 = .ok .aesenc := by decide

theorem test_decode_aesenclast : decodeWord 0b0000000000000000_0000_0000_00100001 = .ok .aesenclast := by decide

theorem test_decode_keyexp128 : decodeWord 0b0000000000000000_0000_0001_00110000 = .ok (.keyexp128 1) := by decide

theorem test_decode_keyexp256 : decodeWord 0b0000000000000000_0000_0010_00110001 = .ok (.keyexp256 2) := by decide

theorem test_decode_rkread : decodeWord 0b0000000000000000_1110_0010_00110010 = .ok (.rkread 2 14) := by decide

theorem test_decode_enc : decodeWord 0b0000000000000000_0000_1000_01000000 = .ok (.enc 8) := by decide

theorem test_decode_crhash : decodeWord 0b0000000000000000_0000_0011_01010000 = .ok (.crhash 3) := by decide

theorem test_decode_ccrhash : decodeWord 0b0000000000000000_0000_0011_01010001 = .ok (.ccrhash 3) := by decide

theorem test_decode_tccrhash : decodeWord 0b0000000000000000_0000_1111_01010010 = .ok (.tccrhash 15) := by decide

/-- V-D1 to V-D4, and the neighbours of two more opcodes (30_encoding.md R88). -/
theorem test_illegal_words :
    decodeWord 0x00000002 = .error .illegalOpcode ∧ decodeWord 0x000000FF = .error .illegalOpcode ∧
      decodeWord 0xFFFFFFFF = .error .illegalOpcode ∧ decodeWord 0x00000053 = .error .illegalOpcode ∧
      decodeWord 0x00000033 = .error .illegalOpcode ∧ decodeWord 0x00000011 = .error .illegalOpcode := by decide

/-- V-D5 to V-D11, V-D28. -/
theorem test_reserved_words :
    decodeWord 0x00000100 = .error .reservedField ∧ decodeWord 0x00001000 = .error .reservedField ∧
      decodeWord 0x00010000 = .error .reservedField ∧ decodeWord 0x80000001 = .error .reservedField ∧
      decodeWord 0x00000110 = .error .reservedField ∧ decodeWord 0x00001140 = .error .reservedField ∧
      decodeWord 0x00010030 = .error .reservedField ∧ decodeWord 0x00010232 = .error .reservedField := by decide

/-- 244 of the 256 OP values are illegal (R88). -/
theorem test_count_of_illegal_opcodes :
    ((List.range 256).filter fun op => !legalOpcode (BitVec.ofNat 8 op)).length = 244 := by decide +kernel

/-- 20_memory.md R53: byte 0 is CMD[7:0]; `RKREAD s2 #14` (R93) carried as bytes. -/
theorem test_bytes_of_a_word : decodeBytes [0x32, 0xE2, 0x00, 0x00, 0x7F] = .ok (.rkread 2 14, [0x7F]) := by decide

theorem test_three_bytes_are_no_word : decodeBytes [0x32, 0xE2, 0x00] = .error .truncated := by decide

/-! ## Assembler lines (30_encoding.md R91, R92; 95_test_vectors.md, part 3) -/

theorem test_assemble_keyexp128 :
    assemble "KEYEXP128 s1 A=0x3C4FCF098815F7ABA6D2AE2816157E2B   ; load" =
      some ⟨0x00000130, 0x3C4FCF098815F7ABA6D2AE2816157E2B, 0⟩ := by decide +kernel

theorem test_assemble_rkread : assemble "RKREAD s1 #10" = some ⟨0x0000A132, 0, 0⟩ := by decide +kernel

theorem test_assemble_tccrhash : assemble "TCCRHASH s1 A=0x0 B=0x1" = some ⟨0x00000152, 0, 1⟩ := by decide +kernel

theorem test_assemble_pseudo :
    assemble "FIXENC A=0x5" = assemble "ENC s0 A=0x5" ∧
      assemble "AESHASH_CR A=0x5 B=0x6" = assemble "CRHASH s0 A=0x5 B=0x6" ∧
      assemble "AESHASH_CCR A=0x5 B=0x6" = assemble "CCRHASH s0 A=0x5 B=0x6" ∧
      assemble "AESHASH_TCCR A=0x5 B=0x6" = assemble "TCCRHASH s0 A=0x5 B=0x6" ∧
      assemble "FIXRK #3" = assemble "RKREAD s0 #3" ∧ assemble "FIXRK #3" = some ⟨0x00003032, 0, 0⟩ := by
  decide +kernel

theorem test_assemble_no_line : assemble "RKREAD s16" = none ∧ assemble "MOV s1" = none := by decide +kernel

/-! ## A small bench

Four slots: slot 0 the schedule of the zero key, slot 1 the AES-128 schedule of the spec's key K (E1), slot 2 its AES-256
schedule (E2), slot 3 EMPTY. -/

/-- E1's key. -/
def keyK : Block := 0x3C4FCF098815F7ABA6D2AE2816157E2B

/-- The plaintext P. -/
def plainP : Block := 0x2A179373117E3DE9969F402EE2BEC16B

/-- The halves of E2's key. -/
def keyA2 : Block := 0x81777D85F0AE732BBE71CA1510EB3D60

/-- The upper half. -/
def keyB2 : Block := 0xF4DF1409A310982DD708613B072C351F

/-- The bench with `extra` more EMPTY slots, and the given commands waiting. -/
def benchWith (extra : Nat) (queues : List (List Command)) (line : ResetLine) : State :=
  { State.reset with
    fixedRk := expand128 0
    loadable :=
      [Slot.ofAes128 (expand128 keyK), Slot.ofAes256 (expand256 keyA2 keyB2), Slot.emptySlot] ++
        List.replicate extra Slot.emptySlot
    requesters := queues
    resetLine := line }

/-- The bench, NKS = 4, with one command waiting. -/
def bench (cmd : Word32) (a b : Block) : State := benchWith 0 [[⟨cmd, a, b⟩]] .released

/-- The same with NKS = 16. -/
def bench16 (cmd : Word32) (a b : Block) : State := benchWith 12 [[⟨cmd, a, b⟩]] .released

/-- A command captured and in progress on the bench. -/
def running (extra : Nat) (cmd : Word32) (a b : Block) : State :=
  { benchWith extra [] .released with txn := some ⟨0, ⟨cmd, a, b⟩⟩ }

/-- The state a step answers, if it answers one. -/
def after (o : Host.Outcome State Fault Refusal) : Option State :=
  match o with
  | .next s => some s
  | _ => none

/-- The response a step returns. -/
def answer (s : State) : Option Response := (after (step s)).bind (·.response)

/-- The contents of slot n after a step. -/
def slotAfter (s : State) (n : Nat) : Option Slot := (after (step s)).map (·.slot n)

/-! ## One step for each command -/

/-- R230. -/
theorem test_nop : answer (bench 0x00000000 7 9) = some ⟨0, .ok, 0, 0⟩ := by decide +kernel

/-- R231, NKS = 4. -/
theorem test_idread : answer (bench 0x00000001 0 0) = some ⟨0, .ok, 0x00047F01, 0⟩ := by decide +kernel

/-- R27, NKS = 16. -/
theorem test_idread_nks16 : answer (bench16 0x00000001 0 0) = some ⟨0, .ok, 0x00107F01, 0⟩ := by decide +kernel

/-- Program P3, step 6. -/
theorem test_clmul : answer (bench 0x00000010 plainP keyK) =
    some ⟨0, .ok, 0xAE7402769ED2B8AC883D125189775785, 0x061074B821074431ABD7F6F966DD1D09⟩ := by decide +kernel

/-- 40_clmul.md R114: x^127 squared is x^254. -/
theorem test_clmul_top_bit : answer (bench 0x00000010 0x80000000000000000000000000000000 0x80000000000000000000000000000000) =
    some ⟨0, .ok, 0, 0x40000000000000000000000000000000⟩ := by decide +kernel

/-- V-R13. -/
theorem test_aesenc : answer (bench 0x00000020 0x16585C7A996BCA42304DEE06F4ABBF40 0x05766C2A3939A323B12C548817FEFAA0) =
    some ⟨0, .ok, 0x5C5076906D97B9C37B39D21FD5E865F2, 0⟩ := by decide +kernel

/-- V-R15. -/
theorem test_aesenclast : answer (bench 0x00000021 0xC482F1742E11E7A4494D3388EBC736BB 0xA60C63B6C80C3FE18925EEC9A8F914D0) =
    some ⟨0, .ok, 0x97EF6624F3CA9EA860367A0DB47BD73A, 0⟩ := by decide +kernel

/-- R170: rk[10] of the loaded slot, and zeros above the schedule. -/
theorem test_keyexp128 : (slotAfter (bench 0x00000330 keyK 5) 3).map (fun e => (e.tag, e.key 10, e.key 11, e.key 14)) =
    some (.aes128, 0xA60C63B6C80C3FE18925EEC9A8F914D0, 0, 0) := by decide +kernel

/-- V-D13. -/
theorem test_keyexp256_slot_zero : answer (bench 0x00000031 keyA2 keyB2) = some ⟨0, .slotReadonly, 0, 0⟩ := by
  decide +kernel

/-- R171: rk[14] of the loaded slot, which held an AES-128 schedule before. -/
theorem test_keyexp256 : (slotAfter (bench 0x00000131 keyA2 keyB2) 1).map (fun e => (e.tag, e.key 1, e.key 14)) =
    some (.aes256, keyB2, 0x1E636C7044F36D040B8D18E6D19048FE) := by decide +kernel

/-- V-D16: slot 15 is loadable where NKS = 16. -/
theorem test_keyexp128_slot_15 : (slotAfter (bench16 0x00000F30 keyK 0) 15).map (·.tag) = some .aes128 := by
  decide +kernel

/-- R172. -/
theorem test_rkread : answer (bench 0x00001132 0 0) = some ⟨0, .ok, 0x05766C2A3939A323B12C548817FEFAA0, 0⟩ := by
  decide +kernel

/-- V-D23. -/
theorem test_rkread_index : answer (bench 0x0000B132 0 0) = some ⟨0, .indexRange, 0, 0⟩ := by decide +kernel

/-- V-E1. -/
theorem test_enc_aes128 : answer (bench 0x00000140 plainP 1) = some ⟨0, .ok, 0x97EF6624F3CA9EA860367A0DB47BD73A, 0⟩ := by
  decide +kernel

/-- V-E2. -/
theorem test_enc_aes256 : answer (bench 0x00000240 plainP 1) = some ⟨0, .ok, 0xF881B13D7E5A4B063CA0D2B5BDD1EEF3, 0⟩ := by
  decide +kernel

/-- V-H2. -/
theorem test_crhash : answer (bench 0x00000150 plainP 0xFFFFFFFFFFFFFFFFFFFFFFFFFFFFFFFF) =
    some ⟨0, .ok, 0xBDF8F557E2B4A341F6A93A2356C51651, 0⟩ := by decide +kernel

/-- V-H15, with slot 0 the schedule of the zero key. -/
theorem test_crhash_slot_zero : answer (bench 0x00000050 0 0) = some ⟨0, .ok, 0x2E2B34CA59FA4C883B2C8AEFD44BE966, 0⟩ := by
  decide +kernel

/-- V-H6. -/
theorem test_ccrhash : answer (bench 0x00000151 plainP 0xFFFFFFFFFFFFFFFFFFFFFFFFFFFFFFFF) =
    some ⟨0, .ok, 0xC44868DE871D34AD0351DF526C259994, 0⟩ := by decide +kernel

/-- V-D21. -/
theorem test_ccrhash_variant : answer (bench 0x00000251 plainP 0) = some ⟨0, .slotVariant, 0, 0⟩ := by decide +kernel

/-- V-H12. -/
theorem test_tccrhash : answer (bench 0x00000152 plainP 5) = some ⟨0, .ok, 0xDAA856F307B7821E41C0E0CBF3A61AF7, 0⟩ := by
  decide +kernel

/-- V-D19, for TCCRHASH: an EMPTY slot. -/
theorem test_tccrhash_empty : answer (bench 0x00000352 plainP 5) = some ⟨0, .slotEmpty, 0, 0⟩ := by decide +kernel

/-- V-D3 and V-D11: the first error in the priority order. -/
theorem test_priority : answer (bench 0xFFFFFFFF 0 0) = some ⟨0, .illegalOpcode, 0, 0⟩ ∧
    answer (bench 0x00010030 0 0) = some ⟨0, .reservedField, 0, 0⟩ ∧
      answer (bench 0x0000F332 0 0) = some ⟨0, .slotEmpty, 0, 0⟩ ∧
      answer (bench 0x0000F432 0 0) = some ⟨0, .slotRange, 0, 0⟩ := by decide +kernel

/-- V-X5: a KEYEXP128 cut short by a reset gives no response and leaves its slot EMPTY. -/
theorem test_reset_during_keyexp :
    let s := benchWith 0 [[⟨0x00000130, keyK, 0⟩]] .duringCommand
    answer s = none ∧ slotAfter s 1 = some Slot.emptySlot ∧ slotAfter s 0 = some (s.slot 0) ∧
      (after (step s)).map (·.requesters) = some [[]] := by decide +kernel

/-- R280: a reset between commands empties a loaded slot; the waiting command keeps waiting. -/
theorem test_reset_between_commands :
    let s := benchWith 0 [[⟨0x00000140, plainP, 0⟩]] .betweenCommands
    slotAfter s 2 = some Slot.emptySlot ∧ (after (step s)).map (·.requesters) = some s.requesters := by decide +kernel

/-- The round's steps on their own: V-R1 to V-R3 (41_aes_round.md). -/
theorem test_round_steps :
    subBytes 0x0F0E0D0C0B0A09080706050403020100 = 0x76ABD7FE2B670130C56F6BF27B777C63 ∧
      shiftRows 0x0F0E0D0C0B0A09080706050403020100 = 0x0B06010C07020D08030E09040F0A0500 ∧
      mixColumns 0x000000000000000000000000455313DB = 0x000000000000000000000000BCA14D8E := by decide +kernel

/-- V-S5. -/
theorem test_sigma : sigma 0x0123456789ABCDEFFEDCBA9876543210 = 0xFEDCBA9876543210FFFFFFFFFFFFFFFF := by decide

/-! ## Witnesses: states and operands that meet the hypotheses of each statement

Most of them ask for a command accepted on the bench, or in progress on it, and a slot of the file with a given tag. -/

/-- The command `t` in progress. -/
def txnOf (cmd : Word32) (a b : Block) : Txn := ⟨0, ⟨cmd, a, b⟩⟩

theorem step_some (s : State) : ∃ u, step s = .next u := by
  rcases step_cases s with ⟨_, h⟩ | ⟨_, h⟩ | ⟨_, _, h⟩ | ⟨_, _, _, _, _, h⟩ <;> exact ⟨_, h⟩

theorem exec_next (i : Instr) (s : State) (h : s.txn.isSome = true) : ∃ u, exec i s = .next u := by
  obtain ⟨t, ht⟩ := Option.isSome_iff_exists.mp h
  exact ⟨_, exec_some i ht⟩

theorem witness_DecodeOfEncodeIsTheCommand :
    (Instr.rkread 15 15).wellFormed = true ∧ (Instr.tccrhash 15).wellFormed = true ∧ Instr.nop.wellFormed = true := by
  decide

/-- The highest SLOT and IDX of R93's table, and its example `RKREAD s2 #14`. -/
theorem witness_WordsOfTheSpecDecode : 0x00000032 + 0x100 * 15 + 0x1000 * 15 = 0x0000FF32 ∧
    0x00000032 + 0x100 * 2 + 0x1000 * 14 = 0x0000E232 ∧ (15 : Nat) < 16 := by decide

theorem witness_EncodeOfDecodeIsTheWord : ∃ i, decodeWord 0x0000FF32 = .ok i := ⟨.rkread 15 15, by decide⟩

theorem witness_CommandWordIsCarriedLittleEndian : (3 : Nat) < 4 := by decide

theorem witness_IllegalOpcodeIsAnswered : (bench 0xFFFFFF53 0 0).resetLine = .released ∧
    (∃ s', (bench 0xFFFFFF53 0 0).accept = some (txnOf 0xFFFFFF53 0 0, s')) ∧ opField 0xFFFFFF53 ∉ opValues :=
  ⟨rfl, ⟨_, rfl⟩, by decide⟩

/-- RSV, an unused SLOT and an unused IDX, each with the smallest nonzero value. -/
theorem witness_ReservedFieldIsAnswered :
    (opField 0x00010032 ∈ opValues ∧ ReservedNonzero 0x00010032) ∧
      (opField 0x00000100 ∈ opValues ∧ ReservedNonzero 0x00000100) ∧
      opField 0x00001140 ∈ opValues ∧ ReservedNonzero 0x00001140 := by
  unfold ReservedNonzero
  decide

theorem witness_NotReserved : opField 0x0000FF32 ∈ opValues ∧ ¬ ReservedNonzero 0x0000FF32 := by
  unfold ReservedNonzero
  decide

theorem witness_StepRunsTheDecodedCommand : (bench 0x00000140 plainP 0).resetLine = .released ∧
    (∃ s', (bench 0x00000140 plainP 0).accept = some (txnOf 0x00000140 plainP 0, s')) ∧
      decodeWord 0x00000140 = .ok (.enc 1) := ⟨rfl, ⟨_, rfl⟩, by decide⟩

theorem witness_PlacedWordRunsNext : decodeTableWord 32 0x0000E232 = some (.rkread 2 14) := by decide

theorem witness_IdlePortChangesNothing : State.reset.resetLine = .released ∧ ∀ k, State.reset.queue k = [] :=
  ⟨rfl, fun _ => rfl⟩

/-- An illegal word as well as a legal one: no command hangs the block. -/
theorem witness_NoCommandHangsTheBlock : (bench 0xFFFFFFFF 0 0).resetLine = .released ∧
    ∃ s', (bench 0xFFFFFFFF 0 0).accept = some (txnOf 0xFFFFFFFF 0 0, s') := ⟨rfl, _, rfl⟩

/-- Two requesters share the port. -/
theorem witness_WaitingCommandsAreServedInOrder :
    let s := benchWith 0 [[], [⟨0x140, plainP, 0⟩], [⟨0x130, 0, 0⟩, ⟨0x1, 0, 0⟩]] .released
    s.resetLine = .released ∧ s.queue 1 ≠ [] ∧ s.queue 2 ≠ [] := by decide +kernel

theorem witness_ErrorsChangeNothing : (bench 0x00000030 keyK 0).resetLine = .released ∧
    (∃ s', (bench 0x00000030 keyK 0).accept = some (txnOf 0x00000030 keyK 0, s')) ∧
      answer (bench 0x00000030 keyK 0) = some ⟨0, .slotReadonly, 0, 0⟩ ∧ Status.slotReadonly ≠ .ok :=
  ⟨rfl, ⟨_, rfl⟩, by decide +kernel, by decide⟩

/-- A command, an illegal word and a reserved word. -/
theorem witness_StatusIsOneTheCommandCanReturn :
    (∀ w, (bench w 0 0).resetLine = .released ∧ (∃ s', (bench w 0 0).accept = some (txnOf w 0 0, s')) ∧
      ∃ u, step (bench w 0 0) = .next u) ∧ decodeWord 0x0000F132 = .ok (.rkread 1 15) ∧
      decodeWord 0x000000FF = .error .illegalOpcode ∧ decodeWord 0x00001040 = .error .reservedField :=
  ⟨fun _ => ⟨rfl, ⟨_, rfl⟩, step_some _⟩, by decide, by decide, by decide⟩

/-- Two conditions hold at once: a reserved field and slot 0. -/
theorem witness_FirstErrorInPriorityIsReported :
    (bench 0x00010030 0 0).resetLine = .released ∧
      (∃ s', (bench 0x00010030 0 0).accept = some (txnOf 0x00010030 0 0, s')) ∧
      (∃ u, step (bench 0x00010030 0 0) = .next u) ∧ ErrorHolds (bench 0x00010030 0 0) 0x00010030 .reservedField ∧
      ErrorHolds (bench 0x00010030 0 0) 0x00010030 .slotReadonly :=
  ⟨rfl, ⟨_, rfl⟩, step_some _, ⟨by decide, .inl (by decide)⟩, ⟨by decide, by decide⟩⟩

theorem witness_UnusedOperandsAreIgnored :
    (running 0 0x00000150 plainP 5).txn = some (txnOf 0x00000150 plainP 5) ∧ readsB (.crhash 1) = false ∧
      readsA (.rkread 1 0) = false := ⟨rfl, by decide, by decide⟩

theorem witness_SideEffectsAreOneSlotAndRepeatable :
    (running 0 0x00000130 keyK 0).txn = some (txnOf 0x00000130 keyK 0) ∧
      (∃ u, exec (.keyexp128 1) (running 0 0x00000130 keyK 0) = .next u) ∧
      (∃ u, exec (.enc 1) (running 0 0x00000140 keyK 0) = .next u) ∧ writesSlot (.enc 1) = false :=
  ⟨rfl, exec_next _ _ rfl, exec_next _ _ rfl, rfl⟩

theorem witness_ReadersNeverInterfere : writesSlot (.rkread 1 0) = false ∧
    ∃ u, exec (.rkread 1 0) { bench 0 0 0 with txn := some (txnOf 0x00000132 0 0) } = .next u :=
  ⟨rfl, exec_next _ _ rfl⟩

/-- Two steps with the same word and tags, and different operands; both complete with OK. -/
theorem witness_LatencyIsIndependentOfData :
    (∀ a b, (bench 0x00000152 a b).resetLine = .released ∧
      (∃ s', (bench 0x00000152 a b).accept = some (txnOf 0x00000152 a b, s')) ∧
        ∃ u, step (bench 0x00000152 a b) = .next u) ∧
      (answer (bench 0x00000152 0 1)).map (·.st) = some .ok ∧
      (answer (bench 0x00000152 plainP keyK)).map (·.st) = some .ok ∧
      (bench 0x00000152 0 1).tags = (bench 0x00000152 plainP keyK).tags :=
  ⟨fun _ _ => ⟨rfl, ⟨_, rfl⟩, step_some _⟩, by decide +kernel, by decide +kernel, rfl⟩

theorem conforming_bench (extra : Nat) : ∀ e ∈ (benchWith extra [] .released).loadable, e.Conforming := by
  intro e he
  have hc : e = Slot.ofAes128 (expand128 keyK) ∨ e = Slot.ofAes256 (expand256 keyA2 keyB2) ∨ e = Slot.emptySlot := by
    simp only [benchWith, List.cons_append, List.nil_append, List.mem_cons, List.mem_replicate] at he
    tauto
  rcases hc with rfl | rfl | rfl
  · show Slot.ofAes128 (expand128 keyK) = _
    decide +kernel
  · show Slot.ofAes256 (expand256 keyA2 keyB2) = _
    decide +kernel
  · rfl

/-- The invariant holds in a state with a slot of each tag, at both ends of the range of NKS that the bench has, and the
step answers a next state. -/
theorem witness_EveryStepKeepsTheInvariant :
    (benchWith 0 [[⟨0x00000330, keyK, 0⟩]] .released).Inv ∧ (benchWith 12 [[⟨0x00000F31, keyA2, keyB2⟩]] .released).Inv ∧
      (∃ u, step (benchWith 0 [[⟨0x00000330, keyK, 0⟩]] .released) = .next u) ∧
      ∃ u, step (benchWith 12 [[⟨0x00000F31, keyA2, keyB2⟩]] .released) = .next u :=
  ⟨⟨by decide, by decide, conforming_bench 0, rfl⟩, ⟨by decide, by decide, conforming_bench 12, rfl⟩, step_some _, step_some _⟩

/-- The lowest NKS, 2. -/
theorem witness_InvAtNks2 : ({ State.reset with loadable := [Slot.emptySlot] } : State).Inv :=
  ⟨by decide, by decide, by simp [Slot.Conforming, Slot.emptySlot], rfl⟩

theorem witness_SlotZeroIsHardwired :
    (∃ u, step (bench 0x00000030 keyK 0) = .next u) ∧ (running 0 0x00000030 keyK 0).txn = some (txnOf 0x00000030 keyK 0) :=
  ⟨step_some _, rfl⟩

/-- The lowest and the highest loadable slot change. -/
theorem witness_OnlyKeyexpWritesASlotAndWhole :
    (bench 0x00000131 keyA2 keyB2).resetLine = .released ∧
      slotAfter (bench 0x00000131 keyA2 keyB2) 1 ≠ some ((bench 0x00000131 keyA2 keyB2).slot 1) ∧
      slotAfter (bench 0x00000330 keyK 0) 3 ≠ some ((bench 0x00000330 keyK 0).slot 3) := by decide +kernel

theorem witness_IdrFieldsAreConstant : (bench 0 0 0).nks = 4 ∧ (bench16 0 0 0).nks = 16 ∧ (bench16 0 0 0).nks ≤ 16 ∧
    ∃ u, step (bench16 0 0 0) = .next u := ⟨by decide, by decide, by decide, step_some _⟩

theorem witness_ResetEventRestoresTheResetValues : (benchWith 0 [] .betweenCommands).resetLine = .betweenCommands ∧
    1 ≤ (1 : Nat) ∧ 3 < (benchWith 0 [] .betweenCommands).nks := by decide

theorem witness_ResetDuringACommandAbandonsIt :
    (benchWith 0 [[⟨0x00000130, keyK, 0⟩]] .duringCommand).resetLine = .duringCommand ∧
      ∃ s', (benchWith 0 [[⟨0x00000130, keyK, 0⟩]] .duringCommand).accept = some (txnOf 0x00000130 keyK 0, s') :=
  ⟨rfl, _, rfl⟩

/-- Both resets, the second with a KEYEXP128 in progress. -/
theorem witness_AfterResetSlotZeroIsReady : (benchWith 0 [] .betweenCommands).resetLine = .betweenCommands ∧
    (benchWith 0 [[⟨0x00000130, keyK, 0⟩]] .duringCommand).resetLine = .duringCommand ∧
    (∃ u, step (benchWith 0 [] .betweenCommands) = .next u) ∧
    (∃ u, step (benchWith 0 [[⟨0x00000130, keyK, 0⟩]] .duringCommand) = .next u) ∧ (10 : Nat) ≤ 10 ∧
      3 < (benchWith 0 [] .betweenCommands).nks := ⟨rfl, rfl, step_some _, step_some _, by decide, by decide⟩

/-- Any two commands and what follows them, with sixteen slots: slot 1 and the highest slot, 15. -/
theorem witness_EncUsesTheScheduleJustLoaded : (∀ queues, (benchWith 12 queues .released).resetLine = .released ∧
    (benchWith 12 queues .released).requesters = queues ∧ (benchWith 12 queues .released).nks = 16) ∧
      1 ≤ (1 : Nat) ∧ (15 : Nat) < 16 := ⟨fun _ => ⟨rfl, rfl, rfl⟩, by decide, by decide⟩

theorem witness_NopRespondsZero : opField 0x00000100 = 0x00 ∧ (0x00000100 : Word32) ≠ 0 ∧
    (running 0 0 7 9).txn = some (txnOf 0 7 9) := ⟨by decide, by decide, rfl⟩

theorem witness_IdreadReturnsIdr : opField 0x00000101 = 0x01 ∧ (0x00000101 : Word32) ≠ 1 ∧
    (running 0 1 7 9).txn = some (txnOf 1 7 9) ∧ (running 0 1 7 9).nks = (bench 0 0 0).nks ∧ (bench 0 0 0).nks = 4 ∧
      ∃ u, step (bench 1 0 0) = .next u := ⟨by decide, by decide, rfl, by decide, by decide, step_some _⟩

theorem witness_ClmulMatchesTheNaiveReference :
    (running 0 0x00000010 plainP keyK).txn = some (txnOf 0x00000010 plainP keyK) := rfl

/-- For Clmul64IsTheConvolution, Clmul128IsTheConvolution and ClmulLaws: the highest bits their sums speak of, and the
highest power of x. -/
theorem witness_ConvolutionBounds : (127 : Nat) < 128 ∧ (255 : Nat) < 256 ∧
    (clmul64 0x8000000000000000 0x8000000000000000).getLsbD 126 = true ∧
      (clmul128 (1#128 <<< 127) (1#128 <<< 127)).2.getLsbD 126 = true := by decide +kernel

theorem witness_ByteFieldIsPolynomialsModulo0x11B : (0x53 : Byte) ≠ 0 ∧ gfMul 0x53 0xCA = 1 := by decide

theorem witness_SboxIsTheAffineMapOfTheInverse : sbox 0x53 = 0xED ∧ sbox 0x00 = 0x63 ∧ sbox 0xFF = 0x16 := by decide

/-- For SubBytesActsOnEachByte, ShiftRowsRotatesRows and MixColumnsMixesEachColumn: the highest byte, row and column. -/
theorem witness_ByteAndColumnBounds : byteOf (subBytes 0xFF000000000000000000000000000000) 15 = 0x16 ∧
    byteOf (shiftRows 0x00000000000000000000000000000000) 15 = 0 ∧ (3 : Nat) < 4 := by decide +kernel

theorem witness_AesencReturnsTheFullRound :
    (running 0 0x00000020 plainP keyK).txn = some (txnOf 0x00000020 plainP keyK) := rfl

theorem witness_AesenclastReturnsTheFinalRound :
    (running 0 0x00000021 plainP keyK).txn = some (txnOf 0x00000021 plainP keyK) := rfl

/-- The first and the last round constant (R160). -/
theorem witness_WordFunctionsInByteForm : 1 ≤ (1 : Nat) ∧ rcon 1 = 0x00000001 ∧ (10 : Nat) ≤ 10 ∧
    rcon 10 = 0x00000036 := by decide

/-- For Expand128IsTheWordRecurrence and Expand256IsTheWordRecurrence: the last round keys and the last word. -/
theorem witness_ExpandBounds : roundKey128 keyK 10 = 0xA60C63B6C80C3FE18925EEC9A8F914D0 ∧
    roundKey256 keyA2 keyB2 14 = 0x1E636C7044F36D040B8D18E6D19048FE ∧ wordOf (roundKey128 keyK (43 / 4)) (43 % 4) =
      0xA60C63B6#32 := by decide +kernel

/-- The lowest and the highest loadable slot of the bench. -/
theorem witness_Keyexp128LoadsTheSchedule : (running 0 0x00000130 keyK 0).txn = some (txnOf 0x00000130 keyK 0) ∧
    1 ≤ (1 : Nat) ∧ 3 < (running 0 0x00000130 keyK 0).nks := ⟨rfl, by decide, by decide⟩

theorem witness_Keyexp256LoadsTheSchedule : (running 12 0x00000F31 keyA2 keyB2).txn = some (txnOf 0x00000F31 keyA2 keyB2) ∧
    1 ≤ (1 : Nat) ∧ 15 < (running 12 0x00000F31 keyA2 keyB2).nks := ⟨rfl, by decide, by decide⟩

/-- Slot 0 at index 10, slot 1 at index 10, slot 2 at index 14. -/
theorem witness_RkreadReturnsTheRoundKey : (running 0 0x0000A132 0 0).txn = some (txnOf 0x0000A132 0 0) ∧
    (running 0 0x0000A132 0 0).nks = 4 ∧ ((running 0 0x0000A132 0 0).slot 0).tag = .aes128 ∧
      ((running 0 0x0000A132 0 0).slot 1).tag = .aes128 ∧ ((running 0 0x0000A132 0 0).slot 2).tag = .aes256 :=
  ⟨rfl, by decide, by decide +kernel, by decide +kernel, by decide +kernel⟩

/-- The first slot beyond the file, and slot 15 of a file of sixteen. -/
theorem witness_SlotRangeIsAnswered : (running 0 0x00000430 0 0).txn = some (txnOf 0x00000430 0 0) ∧
    (running 0 0x00000430 0 0).nks ≤ 4 ∧ (running 12 0x00000F40 0 0).txn = some (txnOf 0x00000F40 0 0) ∧
      (running 12 0x00000F40 0 0).nks = 16 ∧ (Instr.enc 15).wellFormed = true ∧
      ((after (exec (.enc 15) (running 12 0x00000F40 0 0))).bind (·.response)).isSome = true :=
  ⟨rfl, by decide, rfl, by decide, by decide, by decide +kernel⟩

theorem witness_SlotZeroIsReadOnly : (running 0 0x00000031 keyA2 keyB2).txn = some (txnOf 0x00000031 keyA2 keyB2) ∧
    ∃ u, exec (.keyexp256 0) (running 0 0x00000031 keyA2 keyB2) = .next u :=
  ⟨rfl, exec_next _ _ rfl⟩

theorem witness_EmptySlotIsAnswered : (running 0 0x00000340 0 0).txn = some (txnOf 0x00000340 0 0) ∧
    3 < (running 0 0x00000340 0 0).nks ∧ ((running 0 0x00000340 0 0).slot 3).tag = .empty :=
  ⟨rfl, by decide, by decide +kernel⟩

theorem witness_SlotVariantIsAnswered : (running 0 0x00000250 0 0).txn = some (txnOf 0x00000250 0 0) ∧
    2 < (running 0 0x00000250 0 0).nks ∧ ((running 0 0x00000250 0 0).slot 2).tag = .aes256 :=
  ⟨rfl, by decide, by decide +kernel⟩

/-- The first index beyond each schedule: 11 and 15. -/
theorem witness_IndexRangeIsAnswered : (running 0 0x0000B132 0 0).txn = some (txnOf 0x0000B132 0 0) ∧
    ((running 0 0x0000B132 0 0).slot 1).tag = .aes128 ∧ 10 < (11 : Nat) ∧
      ((running 0 0x0000B132 0 0).slot 2).tag = .aes256 ∧ 14 < (15 : Nat) ∧ 2 < (running 0 0x0000B132 0 0).nks :=
  ⟨rfl, by decide +kernel, by decide, by decide +kernel, by decide, by decide⟩

/-- For EncOnAnAes128Slot, CrhashReturnsCr, CcrhashReturnsCcr and TccrhashReturnsTccr, an AES-128 slot: slot 1 and
slot 0. -/
theorem witness_OnAnAes128Slot : (running 0 0x00000140 plainP 5).txn = some (txnOf 0x00000140 plainP 5) ∧
    1 < (running 0 0x00000140 plainP 5).nks ∧ ((running 0 0x00000140 plainP 5).slot 1).tag = .aes128 ∧
      ((running 0 0x00000140 plainP 5).slot 0).tag = .aes128 :=
  ⟨rfl, by decide, by decide +kernel, by decide +kernel⟩

/-- An AES-256 slot. -/
theorem witness_EncOnAnAes256Slot : (running 0 0x00000240 plainP 5).txn = some (txnOf 0x00000240 plainP 5) ∧
    2 < (running 0 0x00000240 plainP 5).nks ∧ ((running 0 0x00000240 plainP 5).slot 2).tag = .aes256 :=
  ⟨rfl, by decide, by decide +kernel⟩

/-- For BytesAreLittleEndian and ViewsRegroupTheSameBits: the highest byte and bit, word and 16-bit element. -/
theorem witness_LayoutBounds : byteOf 0x80000000000000000000000000000000 15 = 0x80 ∧
    wordByte (wordOf 0xFF000000000000000000000000000000 3) 3 = 0xFF ∧
      elem16 0xFFFE0000000000000000000000000000 7 = 0xFFFE := by decide

end Sys2Proof.Tests
end

section
/-! SUPPORT. What the proofs about the state need beyond the model's own laws: slots that meet the slot invariant, what
a rule reads, what a step leaves of the slot file, and the layout of IDR. -/

namespace Sys2Proof.Machine

/-! ## Slots -/

theorem key_emptySlot (r : Nat) : Slot.emptySlot.key r = 0 := by
  by_cases hr : r < 15 <;> simp [Slot.emptySlot, Slot.key, hr]

theorem conforming_emptySlot : Slot.emptySlot.Conforming := rfl

theorem conforming_ofAes128 (k : Block) : (Slot.ofAes128 (expand128 k)).Conforming := by
  have h0 : (Slot.ofAes128 (expand128 k)).key 0 = k :=
    (key_ofAes128_low _ (by decide)).trans (by simp [expand128, roundKey128])
  simp only [Slot.Conforming, ofAes128_tag, h0]

theorem key_ofAes256 (rk : Vector Block 15) {r : Nat} (h : r < 15) : (Slot.ofAes256 rk).key r = rk[r] := key_of_lt _ h

theorem conforming_ofAes256 (a b : Block) : (Slot.ofAes256 (expand256 a b)).Conforming := by
  have h0 : (Slot.ofAes256 (expand256 a b)).key 0 = a :=
    (key_ofAes256 _ (by decide)).trans (by simp [expand256, roundKey256, roundKeys256])
  have h1 : (Slot.ofAes256 (expand256 a b)).key 1 = b :=
    (key_ofAes256 _ (by decide)).trans (by simp [expand256, roundKey256, roundKeys256])
  simp only [Slot.Conforming, ofAes256_tag, h0, h1]

/-- R23: slot 0 has the tag AES128, its schedule is FIXED_RK, and it holds zeros above it. -/
theorem slot_zero_contents (s : State) :
    (s.slot 0).tag = .aes128 ∧ (∀ r, (h : r < 11) → (s.slot 0).key r = s.fixedRk[r]) ∧
      ∀ r, 11 ≤ r → r < 15 → (s.slot 0).key r = 0 :=
  ⟨rfl, fun _ h => key_ofAes128_low _ h, fun _ h _ => key_ofAes128_high _ h⟩

theorem setSlot_loadable_congr {s s' : State} (hl : s'.loadable = s.loadable) (n : Nat) (e : Slot) :
    (s'.setSlot n e).loadable = (s.setSlot n e).loadable := by
  cases n <;> simp [hl]

theorem mem_loadable_setSlot {s : State} {n : Nat} {e x : Slot} (h : x ∈ (s.setSlot n e).loadable) :
    x ∈ s.loadable ∨ x = e := by
  cases n with
  | zero => exact .inl h
  | succ m => exact List.mem_or_eq_of_mem_set h

/-! ## What a rule reads -/

/-- A rule reads nothing of the state but the slot file. -/
theorem ruleOf_congr (i : Instr) {s s' : State} (hf : s'.fixedRk = s.fixedRk) (hl : s'.loadable = s.loadable)
    (c : Command) : ruleOf i s' c = ruleOf i s c := by
  have hn : s'.nks = s.nks := nks_congr hl
  have hs : ∀ n, s'.slot n = s.slot n := slot_congr hf hl
  cases i <;>
    simp only [ruleOf, State.idr, withLoadable, withSchedule128, withSchedule, withSlot, hn, hs]

/-- A rule that does not read A (30_encoding.md R85) asks for the same whatever A is. -/
theorem ruleOf_of_readsA_false {i : Instr} (h : readsA i = false) (s : State) (w : Word32) (a a' b : Block) :
    ruleOf i s ⟨w, a', b⟩ = ruleOf i s ⟨w, a, b⟩ := by
  cases i with
  | nop => rfl
  | idread => rfl
  | rkread n r => rfl
  | _ => cases h

/-- A rule that does not read B (30_encoding.md R85) asks for the same whatever B is; the hashes CR and CCR take the
tweak and drop it (44_hash.md R211). -/
theorem ruleOf_of_readsB_false {i : Instr} (h : readsB i = false) (s : State) (w : Word32) (a b b' : Block) :
    ruleOf i s ⟨w, a, b'⟩ = ruleOf i s ⟨w, a, b⟩ := by
  cases i with
  | nop => rfl
  | idread => rfl
  | keyexp128 n => rfl
  | rkread n r => rfl
  | enc n => rfl
  | crhash n => rfl
  | ccrhash n => rfl
  | _ => cases h

/-- Completing a transaction forgets which operands it was captured with. -/
theorem finish_with_operands (s : State) (x : Option Txn) (t : Txn) (a' b' : Block) (e : Effect) :
    ({ s with txn := x } : State).finish ⟨t.requester, t.command.cmd, a', b'⟩ e = s.finish t e := by
  match e with
  | ⟨_, _, _, none⟩ => rfl
  | ⟨_, _, _, some (0, _)⟩ => rfl
  | ⟨_, _, _, some (_ + 1, _)⟩ => rfl

/-- Captured with other operands for which its rule asks for the same, a command answers the same next state. -/
theorem exec_with_operands {i : Instr} {s : State} {t : Txn} (h : s.txn = some t) (a' b' : Block)
    (hrule : ruleOf i s ⟨t.command.cmd, a', b'⟩ = ruleOf i s t.command) :
    ∃ u, exec i s = .next u ∧
      exec i { s with txn := some ⟨t.requester, t.command.cmd, a', b'⟩ } = .next u := by
  refine ⟨_, exec_some i h, (exec_some i rfl).trans (congrArg _ ?_)⟩
  exact (congrArg _ ((ruleOf_congr i rfl rfl _).trans hrule)).trans (finish_with_operands s _ t a' b' _)

/-! ## What a step does to the slot file -/

/-- The command `c` is a KEYEXP that names slot `n`, and `e` is the slot its operands make (R170, R171). -/
def Command.LoadsSlot (c : Command) (n : Nat) (e : Slot) : Prop :=
  (decodeWord c.cmd = .ok (.keyexp128 n) ∧ e = Slot.ofAes128 (expand128 c.a)) ∨
    (decodeWord c.cmd = .ok (.keyexp256 n) ∧ e = Slot.ofAes256 (expand256 c.a c.b))

theorem Command.LoadsSlot.conforming {c : Command} {n : Nat} {e : Slot} (h : c.LoadsSlot n e) : e.Conforming := by
  rcases h with ⟨_, rfl⟩ | ⟨_, rfl⟩
  · exact conforming_ofAes128 _
  · exact conforming_ofAes256 _ _

/-- An accepted word writes no slot, or it is a KEYEXP and writes the loadable slot of the file that it names. -/
theorem effectOfWord_write (s : State) (c : Command) : (effectOfWord s c).write = none ∨
    ∃ n e, (effectOfWord s c).write = some (n, e) ∧ n ≠ 0 ∧ n < s.nks ∧ c.LoadsSlot n e := by
  cases hd : decodeWord c.cmd with
  | error _ => exact .inl (by simp [effectOfWord, hd])
  | ok i =>
    have he : effectOfWord s c = ruleOf i s c := by simp [effectOfWord, hd]
    rw [he]
    rcases ruleOf_write i s c with hw | ⟨n, e, hw, h0, hn, ⟨rfl, rfl⟩ | ⟨rfl, rfl⟩⟩
    · exact .inl hw
    · exact .inr ⟨n, _, by rw [hw, loadSlot_write], h0, hn, .inl ⟨hd, rfl⟩⟩
    · exact .inr ⟨n, _, by rw [hw, loadSlot_write], h0, hn, .inr ⟨hd, rfl⟩⟩

/-- A reset during a command is the reset event of the same slot file (R281). -/
theorem abandonAndReset_cases (s : State) :
    s.abandonAndReset = s.resetEvent ∨ ∃ k c rest, s.abandonAndReset = (s.accepting k c rest).resetEvent := by
  rcases accept_spec s with ⟨h, _⟩ | ⟨k, c, rest, _, _, h⟩
  · exact .inl (by simp [State.abandonAndReset, h])
  · exact .inr ⟨k, c, rest, by simp [State.abandonAndReset, h]⟩

/-- Everything a step can do to the slot file: FIXED_RK stays and no transaction is left, and the loadable
slots are kept, or emptied by a reset (R31), or one of them is loaded by the accepted command (R24). -/
theorem step_slotFile {s u : State} (h : step s = .next u) : u.fixedRk = s.fixedRk ∧ u.txn = none ∧
    (u.loadable = s.loadable ∨
      (s.resetLine ≠ .released ∧ u.loadable = List.replicate s.loadable.length Slot.emptySlot) ∨
      ∃ t s' n e, s.accept = some (t, s') ∧ n ≠ 0 ∧ n < s.nks ∧ t.command.LoadsSlot n e ∧
        u.loadable = (s.setSlot n e).loadable) := by
  rcases step_cases s with ⟨hr, hs⟩ | ⟨hr, hs⟩ | ⟨_, _, hs⟩ | ⟨t, s', _, ha, _, hs⟩ <;>
    obtain rfl := Host.Outcome.next.inj (hs.symm.trans h)
  · exact ⟨rfl, rfl, .inr (.inl ⟨by simp [hr], rfl⟩)⟩
  · rcases abandonAndReset_cases s with he | ⟨k, c, rest, he⟩ <;> rw [he] <;>
      exact ⟨rfl, rfl, .inr (.inl ⟨by simp [hr], rfl⟩)⟩
  · exact ⟨rfl, rfl, .inl rfl⟩
  · obtain ⟨k, c, rest, _, rfl, rfl⟩ := accept_some ha
    refine ⟨finish_fixedRk _ _ _, rfl, ?_⟩
    rcases effectOfWord_write (s.accepting k c rest) c with hw | ⟨n, e, hw, h0, hn, hload⟩
    · exact .inl (by simp [hw])
    · refine .inr (.inr ⟨_, _, n, e, ha, h0, hn, hload, ?_⟩)
      rw [finish_loadable, hw, commit_some]
      exact setSlot_loadable_congr (accepting_loadable s k c rest) n e

theorem step_fixedRk {s u : State} (h : step s = .next u) : u.fixedRk = s.fixedRk := (step_slotFile h).1

theorem step_nks {s u : State} (h : step s = .next u) : u.nks = s.nks := by
  obtain ⟨_, _, hl | ⟨_, hl⟩ | ⟨_, _, n, e, _, _, _, _, hl⟩⟩ := step_slotFile h
  · exact nks_congr hl
  · simp [State.nks, hl]
  · exact (nks_congr hl).trans (setSlot_nks s n e)

theorem step_slot_zero {s u : State} (h : step s = .next u) : u.slot 0 = s.slot 0 := by
  rw [slot_zero, slot_zero, step_fixedRk h]

/-! ## Resets, an idle port, and a write to slot 0 -/

theorem step_betweenCommands {s : State} (h : s.resetLine = .betweenCommands) : step s = .next s.resetEvent := by
  simp [step, h]

theorem step_idle {s : State} (hr : s.resetLine = .released) (ha : s.accept = none) : step s = .next s.idle := by
  simp [step, hr, ha]

/-- A reset leaves every loadable slot EMPTY (R31). -/
theorem slot_resetEvent (s : State) {n : Nat} (h : n ≠ 0) : s.resetEvent.slot n = Slot.emptySlot := by
  obtain ⟨m, rfl⟩ := Nat.exists_eq_succ_of_ne_zero h
  rw [slot_succ, resetEvent_loadable, List.getD_eq_getElem?_getD, List.getElem?_getD_replicate_default_eq]

/-- Nothing is accepted where no requester has a command waiting. -/
theorem accept_none {s : State} (h : ∀ k, s.queue k = []) : s.accept = none := by
  rcases accept_spec s with ⟨ha, _⟩ | ⟨k, _, _, _, hq, _⟩
  · exact ha
  · rw [h k] at hq
    cases hq

/-- A KEYEXP to slot 0 is refused: slot 0 is in every file (R254). -/
theorem withLoadable_zero (s : State) (e : Effect) : withLoadable s 0 e = raise .slotReadonly := by
  rcases withLoadable_cases s 0 e with ⟨h, _⟩ | ⟨_, h⟩ | ⟨h, _⟩
  · exact absurd (nks_pos s) (by omega)
  · exact h
  · exact absurd rfl h

/-! ## The identification register -/

/-- IDR depends on NKS alone (45_control.md R231). -/
theorem idr_congr {s s' : State} (h : s'.nks = s.nks) : s'.idr = s.idr := by
  rw [State.idr, State.idr, h]

theorem step_idr {s u : State} (h : step s = .next u) : u.idr = s.idr := idr_congr (step_nks h)

theorem idr_eq {s : State} (h : s.nks < 32) : s.idr = 0x7F01#128 ||| (BitVec.ofNat 128 s.nks <<< 16) := by
  rw [State.idr, BitVec.setWidth_ofNat_of_le_of_lt (by decide) h]
  rfl

/-- IDR as a number: NKS above the sixteen bits of VERSION and the features (R27). -/
theorem idr_toNat {s : State} (h : s.nks < 32) : s.idr.toNat = s.nks * 2 ^ 16 + 0x7F01 := by
  have hfit : s.nks <<< 16 < 2 ^ 128 := by rw [Nat.shiftLeft_eq]; omega
  rw [idr_eq h, BitVec.or_comm, BitVec.toNat_or, BitVec.toNat_shiftLeft, BitVec.toNat_ofNat, BitVec.toNat_ofNat,
    Nat.mod_eq_of_lt (a := s.nks) (by omega), Nat.mod_eq_of_lt hfit, Nat.mod_eq_of_lt (by decide),
    ← Nat.shiftLeft_add_eq_or_of_lt (by decide), Nat.shiftLeft_eq]

/-- A field of IDR as a number. -/
theorem idr_field_toNat {s : State} (h : s.nks < 32) (low width : Nat) :
    (s.idr.extractLsb' low width).toNat = (s.nks * 2 ^ 16 + 0x7F01) / 2 ^ low % 2 ^ width := by
  rw [BitVec.extractLsb'_toNat, idr_toNat h, Nat.shiftRight_eq_div_pow]

/-- A bit of VERSION or a feature bit (R27). -/
theorem idr_low_bit {s : State} (h : s.nks < 32) {b : Nat} (hb : b < 16) :
    s.idr.getLsbD b = (0x7F01).testBit b := by
  rw [← BitVec.testBit_toNat, idr_toNat h, Nat.mul_comm, Nat.testBit_two_pow_mul_add _ (by decide), if_pos hb]

end Sys2Proof.Machine
end

section
/-! The statements about the state of the block (10_state.md). -/

namespace Sys2Proof.Machine

/-- Settles O19, by what a step can do to the slot file: a kept slot conforms by the hypothesis, an emptied one is the
EMPTY slot, and a loaded one holds the schedule of its own first round keys. -/
theorem everyStepKeepsTheInvariant : Obligations.EveryStepKeepsTheInvariant := by
  intro s u hinv h
  obtain ⟨_, htxn, hload⟩ := step_slotFile h
  refine ⟨⟨?_, ?_, fun x hx => ?_, htxn⟩, rfl, (slot_zero_contents u).2.2⟩
  · rw [step_nks h]; exact hinv.nks_low
  · rw [step_nks h]; exact hinv.nks_high
  · rcases hload with hl | ⟨_, hl⟩ | ⟨_, _, n, e, _, _, _, he, hl⟩ <;> rw [hl] at hx
    · exact hinv.slots x hx
    · rw [List.eq_of_mem_replicate hx]
      exact conforming_emptySlot
    · rcases mem_loadable_setSlot hx with hx | rfl
      · exact hinv.slots x hx
      · exact he.conforming

/-- Settles O15: the rule of a command asks for the same whatever an unused operand is. -/
theorem unusedOperandsAreIgnored : Obligations.UnusedOperandsAreIgnored := fun _ s _ _ ht =>
  ⟨fun h => exec_with_operands ht _ _ (ruleOf_of_readsA_false h s _ _ _ _),
    fun h => exec_with_operands ht _ _ (ruleOf_of_readsB_false h s _ _ _ _)⟩

/-- Settles O21: slot 0 is computed from FIXED_RK, which no step changes, and the check of a written SLOT refuses 0. -/
theorem slotZeroIsHardwired : Obligations.SlotZeroIsHardwired := fun s =>
  ⟨slot_zero_contents s, fun _ h => ⟨step_slot_zero h, step_fixedRk h, step_nks h⟩, fun _ ht =>
    ⟨exec_completes (.keyexp128 0) ht (withLoadable_zero s _) rfl,
      exec_completes (.keyexp256 0) ht (withLoadable_zero s _) rfl⟩⟩

/-- Settles O22: without a reset the slot file is kept, or it is kept but for the slot that the accepted KEYEXP loads. -/
theorem onlyKeyexpWritesASlotAndWhole : Obligations.OnlyKeyexpWritesASlotAndWhole := by
  intro s u n hr h hne
  obtain ⟨hf, _, hl | ⟨hreset, _⟩ | ⟨t, s', m, e, ha, h0, hm, he, hl⟩⟩ := step_slotFile h
  · exact absurd (slot_congr hf hl n) hne
  · exact absurd hr hreset
  · have hu : ∀ k, u.slot k = (s.setSlot m e).slot k := slot_congr (by simp [hf]) hl
    have hnm : n = m := by
      by_contra hnm
      exact hne ((hu n).trans (slot_setSlot_other s e hnm))
    subst hnm
    rw [(hu n).trans (slot_setSlot_same s e h0 hm)]
    exact ⟨t, s', ha, he⟩

/-- Settles O23: each field is read off IDR as a number, and a step keeps NKS, on which alone IDR depends. -/
theorem idrFieldsAreConstant : Obligations.IdrFieldsAreConstant := by
  intro s hn
  have h32 : s.nks < 32 := by omega
  refine ⟨BitVec.eq_of_toNat_eq ?_, fun b h8 h14 => ?_, idr_low_bit h32 (by decide), ?_, BitVec.eq_of_toNat_eq ?_,
    idr_eq h32, fun _ h => step_idr h⟩
  · rw [idr_field_toNat h32, BitVec.toNat_ofNat]
    omega
  · rw [idr_low_bit h32 (by omega)]
    interval_cases b <;> rfl
  · rw [idr_field_toNat h32]
    omega
  · rw [idr_field_toNat h32]
    change _ = 0
    omega

/-- Settles O24: the step is the reset event, which empties every slot but slot 0. -/
theorem resetEventRestoresTheResetValues : Obligations.ResetEventRestoresTheResetValues := by
  intro s hr
  have hs : step s = .next s.resetEvent := step_betweenCommands hr
  refine ⟨_, hs, ⟨step_slot_zero hs, slot_zero_contents s.resetEvent⟩, fun n h1 _ => ?_, step_nks hs, step_idr hs,
    rfl, rfl⟩
  rw [slot_resetEvent s (by omega)]
  exact ⟨rfl, fun r _ => key_emptySlot r⟩

/-- Settles O9: with every queue empty nothing is accepted, so the step is the idle one. -/
theorem idlePortChangesNothing : Obligations.IdlePortChangesNothing := fun _ hr hq => step_idle hr (accept_none hq)

/-- Settles O20: the opaque number of slots beyond two is below 15, and every loadable slot is the EMPTY slot. -/
theorem resetMeetsTheInvariant : Obligations.ResetMeetsTheInvariant := by
  have hlt : Config.nksAboveTwo.val < 15 := Config.nksAboveTwo.isLt
  have hnks : State.reset.nks = Config.nksAboveTwo.val + 2 := by simp [State.nks, State.reset, Config.nks]
  refine ⟨by omega, by omega, fun e he => ?_, rfl⟩
  rw [List.eq_of_mem_replicate he]
  exact conforming_emptySlot

end Sys2Proof.Machine
end

section
/-! SUPPORT. What the proofs about the data layout and the command port need beyond the model's own laws: blocks as
their bytes and words, the bytes of a command word, the queues after an acceptance, and commands run one after
another. -/

namespace Sys2Proof.Machine

/-! ## Views of a block -/

theorem getLsbD_byteOf (v : Block) (i : Nat) {j : Nat} (hj : j < 8) :
    (byteOf v i).getLsbD j = v.getLsbD (8 * i + j) := by
  simp [byteOf, hj]

theorem byteOf_toNat (v : Block) (i : Nat) : (byteOf v i).toNat = v.toNat / (2 ^ 8) ^ i % 2 ^ 8 := by
  rw [byteOf, BitVec.extractLsb'_toNat, Nat.shiftRight_eq_div_pow, pow_mul]

/-- The lowest k bytes of a block, as a number (20_memory.md R50). -/
theorem toNat_mod_eq_sum_bytes (v : Block) (k : Nat) :
    v.toNat % (2 ^ 8) ^ k = ((List.range k).map fun i => (byteOf v i).toNat * 2 ^ (8 * i)).sum := by
  induction k with
  | zero => simp [Nat.mod_one]
  | succ k ih =>
    rw [Nat.mod_pow_succ, ih, List.range_succ, List.map_append, List.sum_append, List.map_singleton,
      List.sum_singleton, byteOf_toNat, pow_mul, Nat.mul_comm]

/-- Two blocks with the same bytes are equal. -/
theorem block_ext_bytes {v w : Block} (h : ∀ i, i < 16 → byteOf v i = byteOf w i) : v = w := by
  refine BitVec.eq_of_getLsbD_eq fun j hj => ?_
  have hbit : (byteOf v (j / 8)).getLsbD (j % 8) = (byteOf w (j / 8)).getLsbD (j % 8) := by rw [h _ (by omega)]
  have hmod : j % 8 < 8 := Nat.mod_lt _ (by decide)
  rwa [getLsbD_byteOf _ _ hmod, getLsbD_byteOf _ _ hmod, Nat.div_add_mod] at hbit

/-- Two blocks with the same 32-bit elements are equal. -/
theorem block_ext_words {v w : Block} (h : ∀ j, j < 4 → wordOf v j = wordOf w j) : v = w := by
  refine block_ext_bytes fun i hi => ?_
  have hmod : i % 4 < 4 := Nat.mod_lt _ (by decide)
  rw [← Nat.div_add_mod i 4, ← wordByte_wordOf v _ _ hmod, ← wordByte_wordOf w _ _ hmod, h _ (by omega)]

/-- A block built from its own sixteen bytes is the block. -/
theorem fromBytes_eq {v : Block} {b : Nat → Byte} (h : ∀ i, i < 16 → b i = byteOf v i) : fromBytes b = v :=
  block_ext_bytes fun i hi => (byteOf_fromBytes b i hi).trans (h i hi)

theorem fromWords_wordOf (v : Block) : fromWords (wordOf v 0) (wordOf v 1) (wordOf v 2) (wordOf v 3) = v :=
  block_ext_words fun j hj => by
    rw [wordOf_fromWords _ _ _ _ _ hj]
    interval_cases j <;> rfl

/-- A 16-bit element is two bytes, the lower one with the even number (R51). -/
theorem elem16_eq_bytes (v : Block) (j : Nat) : elem16 v j = byteOf v (2 * j + 1) ++ byteOf v (2 * j) := by
  refine BitVec.eq_of_getLsbD_eq fun k hk => ?_
  rw [BitVec.getLsbD_append, elem16, BitVec.getLsbD_extractLsb', decide_eq_true hk, Bool.true_and]
  by_cases hlow : k < 8
  · rw [if_pos hlow, getLsbD_byteOf _ _ hlow]
    congr 1
    omega
  · rw [if_neg hlow, getLsbD_byteOf _ _ (by omega)]
    congr 1
    omega

/-- The byte sequence of a block carries the block (R53). -/
theorem blockOfBytes_blockToBytes (v : Block) : blockOfBytes (blockToBytes v) = some v := by
  have hlen : (blockToBytes v).length = 16 := by simp [blockToBytes]
  rw [blockOfBytes, if_pos hlen]
  exact congrArg some (fromBytes_eq fun i hi => by simp [blockToBytes, hi])

/-! ## The bytes of a command word -/

/-- The bytes of a word that is a command decode to it, and what follows is left over (R53, R89). -/
theorem decodeBytes_of_ok {w : Word32} {i : Instr} (h : decodeWord w = .ok i) (rest : List Byte) :
    decodeBytes (bytesOfWord w ++ rest) = .ok (i, rest) := by
  simp [decodeBytes, wordOfBytes_bytesOfWord, h]

/-- The bytes of a word that is no command are rejected for the word's reason. -/
theorem decodeBytes_of_error {w : Word32} {e : DecodeError} (h : decodeWord w = .error e) (rest : List Byte) :
    decodeBytes (bytesOfWord w ++ rest) = .error (.noCommand e) := by
  simp [decodeBytes, wordOfBytes_bytesOfWord, h]

/-- A word of the opcode table that is a command is read as the decoder reads the word. -/
theorem decodeWord_of_decodeTableWord {nbits w : Nat} {i : Instr} (h : decodeTableWord nbits w = some i) :
    decodeWord (BitVec.ofNat 32 (w % 2 ^ nbits)) = .ok i := by
  rw [decodeTableWord, ← List.append_nil (bytesOfWord _)] at h
  cases hd : decodeWord (BitVec.ofNat 32 (w % 2 ^ nbits)) with
  | ok j =>
    rw [decodeBytes_of_ok hd] at h
    exact congrArg Except.ok (Option.some.inj h)
  | error e =>
    rw [decodeBytes_of_error hd] at h
    cases h

/-- The fields of a well-formed command's word, for every command (30_encoding.md R80, R93). -/
theorem encode_fields (i : Instr) : Laws.EncodedFields.Statement i := by
  cases i with
  | nop => exact Laws.EncodedFields.nop
  | idread => exact Laws.EncodedFields.idread
  | clmul => exact Laws.EncodedFields.clmul
  | aesenc => exact Laws.EncodedFields.aesenc
  | aesenclast => exact Laws.EncodedFields.aesenclast
  | keyexp128 n => exact Laws.EncodedFields.keyexp128 n
  | keyexp256 n => exact Laws.EncodedFields.keyexp256 n
  | rkread n r => exact Laws.EncodedFields.rkread n r
  | enc n => exact Laws.EncodedFields.enc n
  | crhash n => exact Laws.EncodedFields.crhash n
  | ccrhash n => exact Laws.EncodedFields.ccrhash n
  | tccrhash n => exact Laws.EncodedFields.tccrhash n

/-- The row of the opcode map that a command's OP selects makes the command of its own fields (R86), and a field the
row does not use is 0 in the command (R85). -/
theorem opcodeRow_opcode (i : Instr) : ∃ row, opcodeRow i.opcode = some row ∧ row.make i.slotOf i.idxOf = i ∧
    (row.usesSlot = false → i.slotOf = 0) ∧ (row.usesIdx = false → i.idxOf = 0) := by
  cases i <;> exact ⟨_, rfl, rfl, by simp [Instr.slotOf], by simp [Instr.idxOf]⟩

/-- The decoder reads back every well-formed command from its word. -/
theorem decodeWord_encode {i : Instr} (h : i.wellFormed = true) : decodeWord (encode i) = .ok i := by
  obtain ⟨hop, hslot, hidx, hrsv⟩ := encode_fields i h
  obtain ⟨row, hrow, hmake, hs, hi⟩ := opcodeRow_opcode i
  rw [decodeWord, hop, hslot, hidx, hrsv, hrow]
  simp only [ne_eq, not_true_eq_false, if_false]
  rw [if_neg fun hh => hh.2 (hs hh.1), if_neg fun hh => hh.2 (hi hh.1), hmake]

/-! ## The queues -/

theorem queue_congr {s s' : State} (h : s'.requesters = s.requesters) (k : Nat) : s'.queue k = s.queue k := by
  rw [State.queue, State.queue, h]

@[simp] theorem finish_queue (s : State) (t : Txn) (e : Effect) (k : Nat) : (s.finish t e).queue k = s.queue k :=
  queue_congr (finish_requesters s t e) k

/-- A requester's later commands keep their order when its oldest is accepted (20_memory.md R63). -/
theorem queue_accepting_same {s : State} {k : Nat} {c : Command} {rest : List Command} (h : s.queue k = c :: rest) :
    (s.accepting k c rest).queue k = rest := by
  have hk : k < s.requesters.length := by
    by_contra hk
    simp [State.queue, List.getElem?_eq_none (Nat.le_of_not_lt hk)] at h
  simp [State.queue, hk]

/-- No other requester's commands move (R63, R286). -/
theorem queue_accepting_other (s : State) {k m : Nat} (c : Command) (rest : List Command) (h : m ≠ k) :
    (s.accepting k c rest).queue m = s.queue m := by
  simp [State.queue, List.getElem?_set_ne h.symm]

/-- Where some requester waits, a command is accepted. -/
theorem accept_of_waiting {s : State} {k : Nat} (h : s.queue k ≠ []) :
    ∃ k c rest, s.queue k = c :: rest ∧ s.accept = some (⟨k, c⟩, s.accepting k c rest) := by
  rcases accept_spec s with ⟨_, hw⟩ | ⟨k, c, rest, _, hq, ha⟩
  · have hk := mem_waiting.mpr h
    rw [hw] at hk
    cases hk
  · exact ⟨k, c, rest, hq, ha⟩

/-- With one requester, its oldest command is the one accepted, whatever ARBITRATION is. -/
theorem accept_of_one_requester {s : State} {c : Command} {rest : List Command} (h : s.requesters = [c :: rest]) :
    s.accept = some (⟨0, c⟩, s.accepting 0 c rest) := by
  have hq : s.queue 0 = c :: rest := by simp [State.queue, h]
  have hw : s.waiting = [0] := by simp [State.waiting, h, hq]
  simp [State.accept, State.granted, hw, State.acceptFrom, hq]

/-! ## Steps that run a command -/

/-- A step that accepts a command runs it. -/
theorem step_eq_exec {s s' : State} {t : Txn} {i : Instr} (hr : s.resetLine = .released)
    (ha : s.accept = some (t, s')) (hd : decodeWord t.command.cmd = .ok i) : step s = exec i s' := by
  simp [step, hr, ha, hd]

/-- With one requester, a step completes the requester's oldest command with what its rule asks for. -/
theorem step_of_one_requester {s : State} {c : Command} {rest : List Command} {i : Instr}
    (hr : s.resetLine = .released) (hq : s.requesters = [c :: rest]) (hd : decodeWord c.cmd = .ok i) :
    step s = .next ((s.accepting 0 c rest).finish ⟨0, c⟩ (ruleOf i s c)) := by
  rw [step_eq_exec hr (accept_of_one_requester hq) hd, exec_some i (accepting_txn s 0 c rest)]
  exact congrArg (fun e => Host.Outcome.next ((s.accepting 0 c rest).finish ⟨0, c⟩ e)) (ruleOf_congr i rfl rfl c)

/-! ## What a command writes, and commands in sequence -/

/-- A command that is no KEYEXP writes no slot (R25). -/
theorem ruleOf_write_of_reader {i : Instr} (h : writesSlot i = false) (s : State) (c : Command) :
    (ruleOf i s c).write = none := by
  rcases ruleOf_write i s c with hw | ⟨n, e, _, _, _, ⟨rfl, _⟩ | ⟨rfl, _⟩⟩
  · exact hw
  · cases h
  · cases h

/-- A command writes no slot but the one it names. -/
theorem ruleOf_write_named (i : Instr) (s : State) (c : Command) :
    (ruleOf i s c).write = none ∨ ∃ e, (ruleOf i s c).write = some (i.slotOf, e) := by
  rcases ruleOf_write i s c with hw | ⟨n, e, hw, _, _, ⟨rfl, _⟩ | ⟨rfl, _⟩⟩
  · exact .inl hw
  · exact .inr ⟨e, congrArg Effect.write hw⟩
  · exact .inr ⟨e, congrArg Effect.write hw⟩

theorem commit_loadable_congr {s s' : State} (hl : s'.loadable = s.loadable) (w : Option (Nat × Slot)) :
    (s'.commit w).loadable = (s.commit w).loadable := by
  cases w with
  | none => exact hl
  | some p => exact setSlot_loadable_congr hl p.1 p.2

/-- Writing a slot twice with the same contents leaves what writing it once does. -/
theorem commit_commit_loadable (s : State) (w : Option (Nat × Slot)) :
    ((s.commit w).commit w).loadable = (s.commit w).loadable := by
  match w with
  | none => rfl
  | some (0, _) => rfl
  | some (_ + 1, _) => exact List.set_set ..

/-- The check of a written SLOT depends on NKS alone. -/
theorem withLoadable_congr {s s' : State} (h : s'.nks = s.nks) (n : Nat) (e : Effect) :
    withLoadable s' n e = withLoadable s n e := by
  rw [withLoadable, withLoadable, withSlot, withSlot, h]

/-- A command asks for the same again once its own effect is in the slot file: it has changed nothing that its rule
reads, since a rule that writes a slot reads NKS alone (R59). -/
theorem ruleOf_after_itself (i : Instr) (s : State) (t : Txn) (c : Command) :
    ruleOf i (s.finish t (ruleOf i s c)) c = ruleOf i s c := by
  have hnks := finish_nks s t (ruleOf i s c)
  rcases ruleOf_write i s c with hw | ⟨n, e, _, _, _, ⟨rfl, _⟩ | ⟨rfl, _⟩⟩
  · exact ruleOf_congr i (finish_fixedRk s t _) (by rw [finish_loadable, hw, commit_none]) c
  · exact withLoadable_congr hnks _ _
  · exact withLoadable_congr hnks _ _

/-- A command answers the same response and leaves the same slot file in two states with the same slot file. -/
theorem exec_congr (j : Instr) {s s' : State} (t : Txn) (hf : s'.fixedRk = s.fixedRk) (hl : s'.loadable = s.loadable) :
    ∃ v w, exec j { s' with txn := some t } = .next v ∧ exec j { s with txn := some t } = .next w ∧
      v.response = w.response ∧ v.loadable = w.loadable ∧ v.fixedRk = w.fixedRk := by
  have hrule : ruleOf j { s' with txn := some t } t.command = ruleOf j { s with txn := some t } t.command :=
    ruleOf_congr j hf hl _
  refine ⟨_, _, exec_some j rfl, exec_some j rfl, ?_⟩
  rw [hrule, finish_fixedRk, finish_fixedRk, finish_loadable, finish_loadable]
  refine ⟨rfl, commit_loadable_congr ?_ _, hf⟩
  exact hl

/-- A loaded slot of an AES-128 schedule encrypts under that schedule (43_encrypt.md R194). -/
theorem encryptSlot_ofAes128 (rk : Vector Block 11) (x : Block) :
    encryptSlot (Slot.ofAes128 rk) x = respond (encrypt128 rk x) 0 := by
  rw [encryptSlot, ofAes128_tag, keys128_ofAes128]

theorem encryptSlot_ofAes256 (rk : Vector Block 15) (x : Block) :
    encryptSlot (Slot.ofAes256 rk) x = respond (encrypt256 rk x) 0 := rfl

/-- The check of a written SLOT passes a loadable slot of the file. -/
theorem withLoadable_pass {s : State} {n : Nat} (h0 : n ≠ 0) (hn : n < s.nks) (e : Effect) :
    withLoadable s n e = e := by
  rw [withLoadable, withSlot, if_neg (by omega), if_neg h0]

/-- ENC on a slot of the file encrypts under it; an EMPTY one is refused either way (R194, R256). -/
theorem ruleOf_enc {s : State} {n : Nat} (hn : n < s.nks) (c : Command) :
    ruleOf (.enc n) s c = encryptSlot (s.slot n) c.a := by
  rcases withSchedule_cases s n (fun e => encryptSlot e c.a) with ⟨h, _⟩ | ⟨_, ht, he⟩ | ⟨_, _, he⟩
  · omega
  · exact he.trans (by rw [encryptSlot, ht])
  · exact he

/-- A step of one requester whose command asks to load a loadable slot: it is loaded, the answer is OK, and the
requester's later commands wait. -/
theorem step_loads {s : State} {n : Nat} {c : Command} {rest : List Command} {i : Instr} {e : Slot}
    (hr : s.resetLine = .released) (hq : s.requesters = [c :: rest]) (hd : decodeWord c.cmd = .ok i)
    (hload : ruleOf i s c = loadSlot n e) (h0 : n ≠ 0) (hn : n < s.nks) :
    ∃ u, step s = .next u ∧ u.response = some ⟨0, .ok, 0, 0⟩ ∧ u.resetLine = .released ∧ u.requesters = [rest] ∧
      n < u.nks ∧ u.slot n = e := by
  refine ⟨_, step_of_one_requester hr hq hd, ?_⟩
  rw [hload]
  refine ⟨rfl, (finish_resetLine _ _ _).trans hr, ?_, ?_, ?_⟩
  · rw [finish_requesters, accepting_requesters, hq]
    rfl
  · rw [finish_nks]
    exact hn
  · exact (finish_slot _ _ _ n).trans (slot_setSlot_same _ e h0 hn)

/-- A step of one requester whose command is ENC on a slot of the file answers the encryption under that slot. -/
theorem step_enc {s : State} {n : Nat} {x b : Block} {rest : List Command} (hr : s.resetLine = .released)
    (hq : s.requesters = [⟨encode (.enc n), x, b⟩ :: rest]) (hn : n < s.nks) (h16 : n < 16) :
    ∃ v, step s = .next v ∧
      v.response = some ⟨0, (encryptSlot (s.slot n) x).status, (encryptSlot (s.slot n) x).r0,
        (encryptSlot (s.slot n) x).r1⟩ := by
  refine ⟨_, step_of_one_requester hr hq (decodeWord_encode (decide_eq_true h16)), ?_⟩
  rw [ruleOf_enc hn]
  rfl

/-- An ENC right after a command that loads its slot encrypts under what was loaded, whatever the slot held
(20_memory.md R62). -/
theorem enc_after_load {s : State} {n : Nat} {c : Command} {i : Instr} {e : Slot} {x b y : Block} {rest : List Command}
    (hr : s.resetLine = .released) (hq : s.requesters = [c :: ⟨encode (.enc n), x, b⟩ :: rest])
    (hd : decodeWord c.cmd = .ok i) (hload : ruleOf i s c = loadSlot n e) (h0 : n ≠ 0) (hn : n < s.nks) (h16 : n < 16)
    (hy : encryptSlot e x = respond y 0) :
    ∃ u v, step s = .next u ∧ step u = .next v ∧ u.response = some ⟨0, .ok, 0, 0⟩ ∧ v.response = some ⟨0, .ok, y, 0⟩ := by
  obtain ⟨u, hu, hresp, hru, hqu, hnu, hslot⟩ := step_loads hr hq hd hload h0 hn
  obtain ⟨v, hv, hresp'⟩ := step_enc hru hqu hnu h16
  rw [hslot, hy] at hresp'
  exact ⟨u, v, hu, hv, hresp, hresp'⟩

end Sys2Proof.Machine
end

section
/-! The statements about data layout and the command port (20_memory.md). -/

namespace Sys2Proof.Machine

/-- Settles O11: where some requester waits a command is accepted, and completing it moves no queue. -/
theorem waitingCommandsAreServedInOrder : Obligations.WaitingCommandsAreServedInOrder := by
  rintro s hr ⟨_, hwait⟩
  obtain ⟨k, c, rest, hq, ha⟩ := accept_of_waiting hwait
  obtain ⟨_, hs⟩ := step_of_accept hr ha
  refine ⟨k, c, rest, _, _, hq, hs, rfl, rfl, ?_, fun m hm => ?_⟩
  · rw [finish_queue, queue_accepting_same hq]
  · rw [finish_queue, queue_accepting_other s c rest hm]

/-- Settles O16: a rule writes no slot or the one it names, and it asks for the same again in the state it leaves. -/
theorem sideEffectsAreOneSlotAndRepeatable : Obligations.SideEffectsAreOneSlotAndRepeatable := by
  intro i s u t ht h
  obtain rfl := Host.Outcome.next.inj ((exec_some i ht).symm.trans h)
  refine ⟨fun hi => ?_, fun m hm => ?_, _, exec_some i rfl, ?_⟩
  · rw [finish_loadable, ruleOf_write_of_reader hi, commit_none]
  · rw [finish_slot]
    rcases ruleOf_write_named i s t.command with hw | ⟨e, hw⟩ <;> rw [hw]
    · rfl
    · exact slot_setSlot_other s e hm
  · have hrule : ruleOf i { s.finish t (ruleOf i s t.command) with txn := some t } t.command = ruleOf i s t.command :=
      (ruleOf_congr i rfl rfl _).trans (ruleOf_after_itself i s t t.command)
    rw [hrule]
    refine ⟨rfl, (commit_loadable_congr ?_ _).trans (commit_commit_loadable s (ruleOf i s t.command).write)⟩
    exact finish_loadable s t _

/-- Settles O17: a reader leaves FIXED_RK and the loadable slots, and a rule reads nothing else. -/
theorem readersNeverInterfere : Obligations.ReadersNeverInterfere := by
  intro i j s u t t' hi h
  obtain rfl := Host.Outcome.next.inj ((exec_some i rfl).symm.trans h)
  refine exec_congr j t' (finish_fixedRk _ _ _) ?_
  rw [finish_loadable, ruleOf_write_of_reader hi, commit_none]

/-- Settles O27: either KEYEXP asks to load slot n, and the ENC after it finds there what was loaded. -/
theorem encUsesTheScheduleJustLoaded : Obligations.EncUsesTheScheduleJustLoaded := by
  intro s n k k' b x rest hr h1 hn h16
  have h0 : n ≠ 0 := by omega
  exact ⟨fun hq => enc_after_load hr hq (decodeWord_encode (decide_eq_true h16)) (withLoadable_pass h0 hn _) h0 hn h16
      (encryptSlot_ofAes128 _ x),
    fun hq => enc_after_load hr hq (decodeWord_encode (decide_eq_true h16)) (withLoadable_pass h0 hn _) h0 hn h16
      (encryptSlot_ofAes256 _ x)⟩

/-- Settles O59: the sum is the value modulo 2^128. -/
theorem bytesAreLittleEndian : Obligations.BytesAreLittleEndian := fun v =>
  ⟨(Nat.mod_eq_of_lt v.isLt).symm.trans (toNat_mod_eq_sum_bytes v 16), fun i _ _ hj => getLsbD_byteOf v i hj,
    (getLsbD_byteOf v 0 (Nat.succ_pos 7)).symm⟩

/-- Settles O60: each view is fixed by its bytes, and a block by the bytes of each view. -/
theorem viewsRegroupTheSameBits : Obligations.ViewsRegroupTheSameBits := fun v =>
  ⟨fun j k _ hk => wordByte_wordOf v j k hk, fun j _ => elem16_eq_bytes v j, rfl, rfl, mk128_hi_lo v,
    fromWords_wordOf v, fromBytes_eq fun _ _ => rfl, blockOfBytes_blockToBytes v⟩

/-- Settles O4: the four bytes of a word carry it, so decoding them is decoding the word. -/
theorem commandWordIsCarriedLittleEndian : Obligations.CommandWordIsCarriedLittleEndian := by
  intro w rest
  refine ⟨rfl, rfl, fun k hk => ?_, ?_⟩
  · interval_cases k <;> rfl
  · cases hd : decodeWord w with
    | ok i => exact decodeBytes_of_ok hd rest
    | error e => exact decodeBytes_of_error hd rest

/-- Settles O7: what is accepted is some queue's oldest command, and the step runs it. -/
theorem stepRunsTheDecodedCommand : Obligations.StepRunsTheDecodedCommand := by
  intro s s' t hr ha
  refine ⟨?_, fun i hd => step_eq_exec hr ha hd⟩
  obtain ⟨k, c, rest, hq, rfl, rfl⟩ := accept_some ha
  exact ⟨rest, hq, rfl⟩

/-- Settles O8: the placed word is the only requester's oldest command. -/
theorem placedWordRunsNext : Obligations.PlacedWordRunsNext := fun s nbits w _ h =>
  step_eq_exec (withFetchWord_resetLine s nbits w) (accept_of_one_requester (withFetchWord_requesters s nbits w))
    (decodeWord_of_decodeTableWord h)

end Sys2Proof.Machine
end

section
/-! SUPPORT. The number of a command word: a word is the sum of its four fields at their places (30_encoding.md R80), so
a well-formed command's word is its row's number in R93's table, and a word whose RSV is 0 is the word of its fields. -/

namespace Sys2Proof.Machine

/-- The fields of a word are its digits: OP from bit 0, SLOT from 8, IDX from 12, RSV from 16 (R80). -/
theorem eq_ofNat_fields (w : Word32) :
    w = BitVec.ofNat 32
      ((opField w).toNat + 0x100 * slotField w + 0x1000 * idxField w + 0x10000 * (rsvField w).toNat) := by
  have hw := w.isLt
  refine BitVec.eq_of_toNat_eq ?_
  simp only [opField, slotField, idxField, rsvField, BitVec.extractLsb'_toNat, Nat.shiftRight_eq_div_pow,
    BitVec.toNat_ofNat]
  omega

/-- The word assembled from fields that fit is their sum at their places (R91, R93). -/
theorem commandWord_eq_ofNat (op : Byte) {slot idx : Nat} (hs : slot < 16) (hi : idx < 16) :
    commandWord op slot idx = BitVec.ofNat 32 (op.toNat + 0x100 * slot + 0x1000 * idx) := by
  obtain ⟨hop, hslot, hidx, hrsv⟩ := commandWord_fields op slot idx hs hi
  have h := eq_ofNat_fields (commandWord op slot idx)
  rwa [hop, hslot, hidx, hrsv] at h

theorem slotField_lt (w : Word32) : slotField w < 16 := (w.extractLsb' 8 4).isLt

theorem idxField_lt (w : Word32) : idxField w < 16 := (w.extractLsb' 12 4).isLt

/-- A word with RSV = 0 is assembled from its own fields (R84, R91). -/
theorem commandWord_fields_eq {w : Word32} (h : rsvField w = 0) :
    commandWord (opField w) (slotField w) (idxField w) = w := by
  rw [commandWord_eq_ofNat _ (slotField_lt w) (idxField_lt w)]
  have hw := eq_ofNat_fields w
  rw [h] at hw
  exact hw.symm

/-- A command is well formed exactly if its two fields fit, a field it does not use being 0 (R82, R83, R85). -/
theorem wellFormed_iff {i : Instr} : i.wellFormed = true ↔ i.slotOf < 16 ∧ i.idxOf < 16 := by
  cases i <;> simp [Instr.wellFormed, slotFits, idxFits, Instr.slotOf, Instr.idxOf]

/-- What decodes has the fields of its word, and the word's RSV is 0 (R87). -/
theorem fields_of_decodeWord {w : Word32} {i : Instr} (h : decodeWord w = .ok i) :
    i.opcode = opField w ∧ i.slotOf = slotField w ∧ i.idxOf = idxField w ∧ rsvField w = 0 := by
  rcases decodeWord_cases w with ⟨_, he⟩ | ⟨_, _, he⟩ | ⟨_, hres, j, hj, hop, hslot, hidx⟩
  · cases he.symm.trans h
  · cases he.symm.trans h
  · obtain rfl := Except.ok.inj (hj.symm.trans h)
    exact ⟨hop, hslot, hidx, not_not.mp fun hrsv => hres (.inl hrsv)⟩

/-- The number R93 gives a command's word: its base, plus 0x100 for each slot and 0x1000 for each index. -/
def rowNumber (i : Instr) : Nat := i.opcode.toNat + 0x100 * i.slotOf + 0x1000 * i.idxOf

/-- A well-formed command's word is the number of its row (R93). -/
theorem encode_eq_rowNumber {i : Instr} (h : i.wellFormed = true) : encode i = BitVec.ofNat 32 (rowNumber i) :=
  have ⟨hs, hi⟩ := wellFormed_iff.mp h
  commandWord_eq_ofNat i.opcode hs hi

end Sys2Proof.Machine
end

section
/-! The statements about the encoding of commands: O1, O2 and O3. -/

namespace Sys2Proof.Machine

/-- Settles O2: the four bytes of the word carry it, and the word's fields select the command's own row. -/
theorem decodeOfEncodeIsTheCommand : Obligations.DecodeOfEncodeIsTheCommand := fun _ rest h =>
  ⟨decodeWord_encode h, decodeBytes_of_ok (decodeWord_encode h) rest⟩

/-- Settles O3: what decodes has the fields of the word, and with RSV = 0 they make up the word. -/
theorem encodeOfDecodeIsTheWord : Obligations.EncodeOfDecodeIsTheWord := by
  intro w i h
  obtain ⟨hop, hslot, hidx, hrsv⟩ := fields_of_decodeWord h
  constructor
  · rw [wellFormed_iff, hslot, hidx]
    exact ⟨slotField_lt w, idxField_lt w⟩
  · rw [encode, hop, hslot, hidx, commandWord_fields_eq hrsv]

/-- Settles O1: each row holds a well-formed command and its number, so both directions are those of its word. -/
theorem wordsOfTheSpecDecode : Obligations.WordsOfTheSpecDecode := by
  intro s r hs hr p hp
  have hrow : p.2.wellFormed = true ∧ p.1 = rowNumber p.2 := by
    simp only [List.mem_cons, List.not_mem_nil, or_false] at hp
    rcases hp with rfl | rfl | rfl | rfl | rfl | rfl | rfl | rfl | rfl | rfl | rfl | rfl <;>
      exact ⟨wellFormed_iff.mpr (by simp [Instr.slotOf, Instr.idxOf, hs, hr]), rfl⟩
  obtain ⟨hwf, hnum⟩ := hrow
  rw [hnum, ← encode_eq_rowNumber hwf]
  exact ⟨rfl, decodeWord_encode hwf⟩

end Sys2Proof.Machine
end

section
/-! SUPPORT. Carryless arithmetic is arithmetic of polynomials over the two-element field (40_clmul.md R110): Mathlib's
Boolean ring on `Bool` is that field, XOR its sum and AND its product. A bit vector stands for the polynomial whose
coefficients are its bits, and each operation of the multiplier is a ring operation there. -/

namespace Sys2Proof.Machine

open Polynomial

/-! ## Bit vectors as polynomials -/

/-- The polynomial whose coefficient of X^i is bit i (R110). -/
noncomputable def polyOf {w : Nat} (v : BitVec w) : Bool[X] := ∑ i ∈ Finset.range w, monomial i (v.getLsbD i)

/-! The constants of the Boolean ring, in the spelling that bits have. -/

theorem bool_zero : (0 : Bool) = false := rfl

theorem bool_one : (1 : Bool) = true := rfl

section
variable {w n : Nat}

@[simp] theorem coeff_polyOf (v : BitVec w) (k : Nat) : (polyOf v).coeff k = v.getLsbD k := by
  rw [polyOf, finsetSum_coeff]
  simp only [coeff_monomial, Finset.sum_ite_eq', Finset.mem_range]
  split
  · rfl
  · exact (BitVec.getLsbD_of_ge v k (by omega)).symm

theorem polyOf_injective : Function.Injective (polyOf (w := w)) := fun u v h =>
  BitVec.eq_of_getLsbD_eq fun k _ => by rw [← coeff_polyOf u, ← coeff_polyOf v, h]

@[simp] theorem polyOf_zero : polyOf (0 : BitVec w) = 0 := by
  ext k
  simp [bool_zero]

@[simp] theorem polyOf_xor (u v : BitVec w) : polyOf (u ^^^ v) = polyOf u + polyOf v := by
  ext k
  rw [coeff_add, coeff_polyOf, coeff_polyOf, coeff_polyOf, BitVec.getLsbD_xor]
  rfl

/-- A shift within the wider vector, which loses no bit, multiplies by a power of X. -/
theorem polyOf_setWidth_shiftLeft (v : BitVec w) {m j : Nat} (h : w + j ≤ m) :
    polyOf (v.setWidth m <<< j) = polyOf v * X ^ j := by
  ext k
  rw [coeff_polyOf, coeff_mul_X_pow', coeff_polyOf, BitVec.getLsbD_shiftLeft, BitVec.getLsbD_setWidth]
  by_cases hjk : j ≤ k
  · by_cases hk : k < m
    · simp [hjk, hk, show ¬ k < j by omega, show k - j < m by omega]
    · simp [hk, hjk, BitVec.getLsbD_of_ge v (k - j) (by omega)]
  · simp [hjk, show k < j by omega, bool_zero]

/-- A power of x in a bit vector is the power of X. -/
theorem polyOf_one_shiftLeft {k : Nat} (h : k < w) : polyOf (1#w <<< k) = X ^ k := by
  ext i
  rw [coeff_polyOf, coeff_X_pow, ← BitVec.twoPow_eq, BitVec.getLsbD_twoPow]
  by_cases hik : i = k
  · simp [hik, h, bool_one]
  · simp [hik, Ne.symm hik, bool_zero]

theorem polyOf_append (u : BitVec w) (v : BitVec n) : polyOf (u ++ v) = polyOf u * X ^ n + polyOf v := by
  ext k
  rw [coeff_polyOf, coeff_add, coeff_mul_X_pow', coeff_polyOf, coeff_polyOf, BitVec.getLsbD_append]
  by_cases hk : k < n
  · simp [hk, bool_zero]
  · simp [hk, show n ≤ k by omega, bool_zero]

end

theorem polyOf_block (v : Block) : polyOf v = polyOf (hi v) * X ^ 64 + polyOf (lo v) := by
  rw [← polyOf_append]
  exact congrArg polyOf (mk128_hi_lo v).symm

/-! ## The coefficients of a product -/

theorem foldl_xor_eq_sum (f : Nat → Bool) (n : Nat) :
    (List.range n).foldl (fun acc j => acc ^^ f j) false = ∑ j ∈ Finset.range n, f j := by
  induction n with
  | zero => rfl
  | succ n ih =>
    rw [List.range_succ, List.foldl_append, ih, Finset.sum_range_succ]
    rfl

/-- A coefficient of a product is the XOR of the ANDs of R111 and R112. -/
theorem coeff_polyOf_mul {w n : Nat} (a : BitVec w) (b : BitVec n) (k : Nat) :
    (polyOf a * polyOf b).coeff k =
      (List.range n).foldl (fun acc j => acc ^^ (decide (j ≤ k) && a.getLsbD (k - j) && b.getLsbD j)) false := by
  rw [foldl_xor_eq_sum, polyOf.eq_def b, Finset.mul_sum, finsetSum_coeff]
  refine Finset.sum_congr rfl fun j _ => ?_
  rw [← C_mul_X_pow_eq_monomial, ← mul_assoc, coeff_mul_X_pow']
  by_cases hj : j ≤ k
  · rw [if_pos hj, coeff_mul_C, coeff_polyOf, decide_eq_true hj, Bool.true_and]
    rfl
  · rw [if_neg hj, decide_eq_false hj]
    rfl

/-- No product of two bits reaches the top place of a product: the highest is x^(w-1) times x^(n-1). -/
theorem coeff_polyOf_mul_top {w n k : Nat} (a : BitVec w) (b : BitVec n) (h : w + n ≤ k + 1) :
    (polyOf a * polyOf b).coeff k = false := by
  rw [coeff_mul]
  refine Finset.sum_eq_zero fun p hp => ?_
  have hsum : p.1 + p.2 = k := Finset.HasAntidiagonal.mem_antidiagonal.mp hp
  rw [coeff_polyOf, coeff_polyOf]
  by_cases ha : w ≤ p.1
  · rw [BitVec.getLsbD_of_ge a _ ha]
    exact zero_mul _
  · rw [BitVec.getLsbD_of_ge b _ (by omega)]
    exact mul_zero _

theorem charP_bool : CharP Bool 2 := CharTwo.of_one_ne_zero_of_two_eq_zero (by decide) (by decide)

/-- Squaring over the two-element field spreads the coefficients to the even places (R113). -/
theorem mul_self_eq_expand (f : Bool[X]) : f * f = expand Bool 2 f := by
  have := charP_bool
  have hfrob : frobenius Bool 2 = RingHom.id Bool := RingHom.ext fun b => by
    rw [frobenius_def, pow_two]
    exact Bool.and_self b
  rw [← pow_two, ← map_frobenius_expand 2 f, hfrob, Polynomial.map_id]

/-! ## The multiplier -/

/-- The loop that CLMUL64 (R111) and the naive reference (R115) share: the XOR over the bits j below n that are 1 of x
shifted left by j. -/
def shiftXor {m : Nat} (n : Nat) (x : BitVec m) (bit : Nat → Bool) : BitVec m :=
  (List.range n).foldl (fun acc j => if bit j then acc ^^^ (x <<< j) else acc) 0

theorem clmul64_eq_shiftXor (a b : Half) : clmul64 a b = shiftXor 64 (a.setWidth 128) b.getLsbD := rfl

theorem clmulReference_eq_shiftXor (a b : Block) : clmulReference a b = shiftXor 128 (a.setWidth 256) b.getLsbD := rfl

theorem shiftXor_succ {m : Nat} (n : Nat) (x : BitVec m) (bit : Nat → Bool) :
    shiftXor (n + 1) x bit = if bit n then shiftXor n x bit ^^^ (x <<< n) else shiftXor n x bit := by
  rw [shiftXor, List.range_succ, List.foldl_append]
  rfl

/-- The loop multiplies by the polynomial of the bits it has read, if the vector holds every shift. -/
theorem polyOf_shiftXor {w m : Nat} (a : BitVec w) (bit : Nat → Bool) {n : Nat} (h : w + n ≤ m + 1) :
    polyOf (shiftXor n (a.setWidth m) bit) = polyOf a * ∑ j ∈ Finset.range n, monomial j (bit j) := by
  induction n with
  | zero => rw [Finset.sum_range_zero, mul_zero]; exact polyOf_zero
  | succ n ih =>
    rw [shiftXor_succ, Finset.sum_range_succ, mul_add, ← ih (by omega)]
    cases bit n with
    | false =>
      have hzero : monomial n false = (0 : Bool[X]) := monomial_zero_right n
      rw [hzero, mul_zero, add_zero]
      rfl
    | true =>
      have hpow : monomial n true = (X ^ n : Bool[X]) := monomial_one_right_eq_X_pow n
      rw [hpow, if_pos rfl, polyOf_xor, polyOf_setWidth_shiftLeft a (by omega)]

/-- CLMUL64 is the product of polynomials (R111). -/
theorem polyOf_clmul64 (a b : Half) : polyOf (clmul64 a b) = polyOf a * polyOf b := by
  rw [clmul64_eq_shiftXor]
  exact polyOf_shiftXor a b.getLsbD (by decide)

/-- The naive reference is the product of polynomials (R115). -/
theorem polyOf_clmulReference (a b : Block) : polyOf (clmulReference a b) = polyOf a * polyOf b := by
  rw [clmulReference_eq_shiftXor]
  exact polyOf_shiftXor a b.getLsbD (by decide)

/-- The 256-bit product of CLMUL128, the high half above the low one (R112). -/
def clmulProduct (a b : Block) : BitVec 256 := (clmul128 a b).2 ++ (clmul128 a b).1

/-- CLMUL128 is the product of polynomials: the cross products of the halves make up the schoolbook product, the middle
one straddling the two halves of the result (R112). -/
theorem polyOf_clmulProduct (a b : Block) : polyOf (clmulProduct a b) = polyOf a * polyOf b := by
  have hmid := polyOf_block (clmul64 (lo a) (hi b) ^^^ clmul64 (hi a) (lo b))
  rw [polyOf_xor, polyOf_clmul64, polyOf_clmul64] at hmid
  rw [clmulProduct, polyOf_append, clmul128, polyOf_xor, polyOf_xor, mk128, mk128, polyOf_append, polyOf_append,
    polyOf_zero, polyOf_clmul64, polyOf_clmul64, polyOf_block a, polyOf_block b]
  linear_combination -X ^ 64 * hmid

/-- CLMUL128 and the naive reference are the same product (R115). -/
theorem clmulProduct_eq_clmulReference (a b : Block) : clmulProduct a b = clmulReference a b :=
  polyOf_injective ((polyOf_clmulProduct a b).trans (polyOf_clmulReference a b).symm)

theorem getLsbD_clmulProduct (a b : Block) (k : Nat) :
    (clmulProduct a b).getLsbD k = (polyOf a * polyOf b).coeff k := by
  rw [← coeff_polyOf, polyOf_clmulProduct]

theorem clmulProduct_low (a b : Block) : (clmulProduct a b).extractLsb' 0 128 = (clmul128 a b).1 :=
  BitVec.extractLsb'_append_eq_right

theorem clmulProduct_high (a b : Block) : (clmulProduct a b).extractLsb' 128 128 = (clmul128 a b).2 :=
  BitVec.extractLsb'_append_eq_left

/-- A pair of halves is CLMUL128's once the 256-bit value it makes up is the product of the polynomials. -/
theorem clmul128_eq_of_polyOf {a b l h : Block} (hp : polyOf a * polyOf b = polyOf (h ++ l)) :
    clmul128 a b = (l, h) := by
  have hbits : clmulProduct a b = h ++ l := polyOf_injective ((polyOf_clmulProduct a b).trans hp)
  refine Prod.ext ?_ ?_
  · rw [← clmulProduct_low, hbits, BitVec.extractLsb'_append_eq_right]
  · rw [← clmulProduct_high, hbits, BitVec.extractLsb'_append_eq_left]

/-! ## The laws of the product (R113) -/

theorem clmul128_comm (a b : Block) : clmul128 a b = clmul128 b a :=
  clmul128_eq_of_polyOf ((mul_comm _ _).trans (polyOf_clmulProduct b a).symm)

theorem clmul128_xor_right (a b c : Block) :
    clmul128 a (b ^^^ c) = ((clmul128 a b).1 ^^^ (clmul128 a c).1, (clmul128 a b).2 ^^^ (clmul128 a c).2) := by
  refine clmul128_eq_of_polyOf ?_
  rw [← BitVec.xor_append, polyOf_xor, polyOf_xor, mul_add]
  exact congrArg₂ (· + ·) (polyOf_clmulProduct a b).symm (polyOf_clmulProduct a c).symm

theorem clmul128_xor_left (a b c : Block) :
    clmul128 (a ^^^ c) b = ((clmul128 a b).1 ^^^ (clmul128 c b).1, (clmul128 a b).2 ^^^ (clmul128 c b).2) := by
  rw [clmul128_comm, clmul128_xor_right, clmul128_comm b a, clmul128_comm b c]

theorem clmul128_zero (a : Block) : clmul128 a 0 = (0, 0) :=
  clmul128_eq_of_polyOf (by rw [polyOf_append, polyOf_zero, mul_zero, zero_mul, add_zero])

theorem clmulProduct_one_shiftLeft (a : Block) {k : Nat} (hk : k < 128) :
    clmulProduct a (1#128 <<< k) = a.setWidth 256 <<< k := by
  refine polyOf_injective ?_
  rw [polyOf_clmulProduct, polyOf_one_shiftLeft hk, polyOf_setWidth_shiftLeft a (by omega)]

theorem polyOf_block_one : polyOf (1 : Block) = 1 := polyOf_one_shiftLeft (w := 128) (k := 0) (by decide)

theorem clmul128_one (a : Block) : clmul128 a 1 = (a, 0) :=
  clmul128_eq_of_polyOf (by rw [polyOf_append, polyOf_block_one, polyOf_zero, mul_one, zero_mul, zero_add])

theorem getLsbD_clmulProduct_self_even (a : Block) (i : Nat) : (clmulProduct a a).getLsbD (2 * i) = a.getLsbD i := by
  rw [getLsbD_clmulProduct, mul_self_eq_expand, coeff_expand_mul' (by decide), coeff_polyOf]

theorem getLsbD_clmulProduct_self_odd (a : Block) (i : Nat) : (clmulProduct a a).getLsbD (2 * i + 1) = false := by
  rw [getLsbD_clmulProduct, mul_self_eq_expand, coeff_expand (by decide), if_neg (by omega)]
  rfl

end Sys2Proof.Machine
end

section
/-! The statements about the carryless multiplier (40_clmul.md). -/

namespace Sys2Proof.Machine

/-- Settles O31: the bits of CLMUL64 are the coefficients of the product. -/
theorem clmul64IsTheConvolution : Obligations.Clmul64IsTheConvolution := by
  intro a b
  have hbit : ∀ k, (clmul64 a b).getLsbD k = (polyOf a * polyOf b).coeff k := fun k => by
    rw [← coeff_polyOf, polyOf_clmul64]
  exact ⟨fun k _ => (hbit k).trans (coeff_polyOf_mul a b k), (hbit 127).trans (coeff_polyOf_mul_top a b (by decide))⟩

/-- Settles O32: the bits of the four-product form are the coefficients of the product too. -/
theorem clmul128IsTheConvolution : Obligations.Clmul128IsTheConvolution := by
  intro a b
  refine ⟨fun k _ => (getLsbD_clmulProduct a b k).trans (coeff_polyOf_mul a b k), ?_⟩
  have htop : (clmulProduct a b).getLsbD 255 = false :=
    (getLsbD_clmulProduct a b 255).trans (coeff_polyOf_mul_top a b (by decide))
  rwa [clmulProduct, BitVec.getLsbD_append] at htop

/-- Settles O30: CLMUL answers the halves of its product, and product and reference are the same polynomial. -/
theorem clmulMatchesTheNaiveReference : Obligations.ClmulMatchesTheNaiveReference := by
  intro s t ht
  rw [← clmulProduct_eq_clmulReference, clmulProduct_low, clmulProduct_high]
  exact exec_completes .clmul ht rfl rfl

/-- Settles O33: each law is one of the ring of polynomials, and the square has the coefficients of `expand`. -/
theorem clmulLaws : Obligations.ClmulLaws := fun a b c =>
  ⟨clmul128_comm a b, clmul128_xor_right a b c, clmul128_xor_left a b c, clmul128_zero a, clmul128_one a,
    fun _ hk => clmulProduct_one_shiftLeft a hk, fun i _ =>
      ⟨getLsbD_clmulProduct_self_even a i, getLsbD_clmulProduct_self_odd a i⟩⟩

end Sys2Proof.Machine
end

section
/-! SUPPORT. The byte field (41_aes_round.md R130): a byte is the class of its polynomial modulo
x^8 + x^4 + x^3 + x + 1, and each byte operation of the model is a ring operation on the classes. -/

namespace Sys2Proof.Machine

open Polynomial

/-! ## More on bit vectors as polynomials -/

theorem polyOf_setWidth {w m : Nat} (v : BitVec w) (h : w ≤ m) : polyOf (v.setWidth m) = polyOf v := by
  simpa using polyOf_setWidth_shiftLeft v (j := 0) h

theorem natDegree_polyOf_lt {w : Nat} (v : BitVec w) (h : 0 < w) : (polyOf v).natDegree < w := by
  have hle : (polyOf v).natDegree ≤ w - 1 := natDegree_le_iff_coeff_eq_zero.mpr fun k hk => by
    rw [coeff_polyOf, BitVec.getLsbD_of_ge v k (by omega), bool_zero]
  omega

/-- Every polynomial that fits the width is the polynomial of a bit vector. -/
theorem exists_polyOf_eq {w : Nat} {f : Bool[X]} (h : f.natDegree < w) : ∃ v : BitVec w, polyOf v = f := by
  refine ⟨BitVec.ofFnLE fun i => f.coeff i, ?_⟩
  ext k
  rw [coeff_polyOf]
  by_cases hk : k < w
  · simp [BitVec.getLsbD_eq_getElem hk]
  · rw [BitVec.getLsbD_of_ge _ k (by omega), coeff_eq_zero_of_natDegree_lt (by omega), bool_zero]

/-! ## The modulus -/

/-- `m(x) = x^8 + x^4 + x^3 + x + 1` (R130). -/
noncomputable def fieldPoly : Bool[X] := X ^ 8 + X ^ 4 + X ^ 3 + X + 1

theorem fieldPoly_monic : fieldPoly.Monic := by
  unfold fieldPoly
  monicity!

theorem natDegree_fieldPoly : fieldPoly.natDegree = 8 := by
  unfold fieldPoly
  compute_degree!

theorem polyOf_0x11B : polyOf (0x11B : BitVec 9) = fieldPoly := by
  have hpowers : (0x11B : BitVec 9) = 1#9 <<< 8 ^^^ 1#9 <<< 4 ^^^ 1#9 <<< 3 ^^^ 1#9 <<< 1 ^^^ 1#9 <<< 0 := rfl
  rw [hpowers, fieldPoly]
  simp (disch := decide) only [polyOf_xor, polyOf_one_shiftLeft, pow_one, pow_zero]

theorem polyOf_half_0x11B : polyOf (0x11B : Half) = fieldPoly :=
  (polyOf_setWidth (0x11B : BitVec 9) (by decide)).trans polyOf_0x11B

/-! ## Bytes as field elements -/

/-- The element of GF(2^8) that a byte stands for (R130). -/
noncomputable def fieldElem (b : Byte) : AdjoinRoot fieldPoly := AdjoinRoot.mk fieldPoly (polyOf b)

theorem fieldElem_zero : fieldElem 0 = 0 := by rw [fieldElem, polyOf_zero, map_zero]

@[simp] theorem fieldElem_xor (a b : Byte) : fieldElem (a ^^^ b) = fieldElem a + fieldElem b := by simp [fieldElem]

/-- Different bytes are different elements: m divides no nonzero polynomial of degree below 8. -/
theorem fieldElem_injective : Function.Injective fieldElem := by
  intro a b h
  have hdvd : fieldPoly ∣ polyOf a - polyOf b := AdjoinRoot.mk_eq_mk.mp h
  refine polyOf_injective (sub_eq_zero.mp (not_not.mp fun hne => ?_))
  refine fieldPoly_monic.not_dvd_of_natDegree_lt hne ?_ hdvd
  rw [natDegree_fieldPoly]
  have ha := natDegree_polyOf_lt a (by decide)
  have hb := natDegree_polyOf_lt b (by decide)
  exact (natDegree_sub_le _ _).trans_lt (max_lt ha hb)

/-- Within nine bits, xtime subtracts 0x11B from the shifted byte exactly if bit 8 is 1 (R131). -/
theorem setWidth_xtime (b : Byte) :
    (xtime b).setWidth 9 = (b.setWidth 9 <<< 1) ^^^ (if b.getLsbD 7 then 0x11B else 0) := by
  decide +revert

theorem fieldElem_xtime (b : Byte) : fieldElem (xtime b) = fieldElem b * AdjoinRoot.root fieldPoly := by
  have hpoly := congrArg polyOf (setWidth_xtime b)
  rw [polyOf_setWidth _ (by decide), polyOf_xor, polyOf_setWidth_shiftLeft b (by decide), pow_one] at hpoly
  rw [fieldElem, hpoly, map_add, map_mul, AdjoinRoot.mk_X]
  split
  · rw [polyOf_0x11B, AdjoinRoot.mk_self, add_zero]; rfl
  · rw [polyOf_zero, map_zero, add_zero]; rfl

theorem fieldElem_xtimes (a : Byte) (n : Nat) :
    fieldElem (xtimes a n) = fieldElem a * AdjoinRoot.root fieldPoly ^ n := by
  induction n with
  | zero => simp [xtimes]
  | succ n ih => rw [xtimes, fieldElem_xtime, ih, pow_succ, mul_assoc]

/-- The loop of the byte product adds the chosen multiples of `a` (R130). -/
theorem fieldElem_foldl_xtimes (a : Byte) (bit : Nat → Bool) (n : Nat) :
    fieldElem ((List.range n).foldl (fun acc i => if bit i then acc ^^^ xtimes a i else acc) 0) =
      fieldElem a * AdjoinRoot.mk fieldPoly (∑ i ∈ Finset.range n, monomial i (bit i)) := by
  induction n with
  | zero => rw [Finset.sum_range_zero, map_zero, mul_zero]; exact fieldElem_zero
  | succ n ih =>
    rw [List.range_succ, List.foldl_append, Finset.sum_range_succ, map_add, mul_add, ← ih]
    cases hbit : bit n with
    | false =>
      have hzero : monomial n false = (0 : Bool[X]) := monomial_zero_right n
      simp [hbit, hzero]
    | true =>
      have hpow : monomial n true = (X ^ n : Bool[X]) := monomial_one_right_eq_X_pow n
      simp [hbit, hpow, fieldElem_xtimes]

/-- The byte product is the product modulo m (R130). -/
@[simp] theorem fieldElem_gfMul (a b : Byte) : fieldElem (gfMul a b) = fieldElem a * fieldElem b :=
  fieldElem_foldl_xtimes a b.getLsbD 8

theorem fieldElem_one : fieldElem 1 = 1 := by
  rw [fieldElem, show polyOf (1 : Byte) = 1 from polyOf_one_shiftLeft (w := 8) (k := 0) (by decide), map_one]

theorem fieldElem_two : fieldElem 2 = AdjoinRoot.root fieldPoly := by
  rw [show (2 : Byte) = xtime 1 from rfl, fieldElem_xtime, fieldElem_one, one_mul]

theorem xtime_eq_gfMul (b : Byte) : xtime b = gfMul b 2 :=
  fieldElem_injective (by rw [fieldElem_xtime, fieldElem_gfMul, fieldElem_two])

theorem mul3_eq_gfMul (b : Byte) : mul3 b = gfMul b 3 :=
  fieldElem_injective (by
    rw [mul3, show (3 : Byte) = 2 ^^^ 1 from rfl, fieldElem_gfMul, fieldElem_xor, fieldElem_xor, fieldElem_xtime,
      fieldElem_two, fieldElem_one, mul_add, mul_one])

/-- The polynomial product is the byte product plus a multiple of m; the degrees show that the factor fits a half
(R130). -/
theorem polyOf_mul_eq (a b : Byte) : ∃ q : Half, polyOf a * polyOf b = polyOf q * fieldPoly + polyOf (gfMul a b) := by
  have hclass : AdjoinRoot.mk fieldPoly (polyOf a * polyOf b) = fieldElem (gfMul a b) := by
    rw [fieldElem_gfMul, map_mul]; rfl
  obtain ⟨f, hf⟩ := AdjoinRoot.mk_eq_mk.mp hclass
  obtain ⟨q, rfl⟩ : ∃ q : Half, polyOf q = f := by
    refine exists_polyOf_eq ?_
    by_cases hzero : f = 0
    · simp [hzero]
    have hdeg := congrArg natDegree hf
    rw [fieldPoly_monic.natDegree_mul' hzero] at hdeg
    have ha := natDegree_polyOf_lt a (by decide)
    have hb := natDegree_polyOf_lt b (by decide)
    have hg := natDegree_polyOf_lt (gfMul a b) (by decide)
    have hmul := natDegree_mul_le (p := polyOf a) (q := polyOf b)
    have hsub := natDegree_sub_le (polyOf a * polyOf b) (polyOf (gfMul a b))
    omega
  exact ⟨q, by rw [mul_comm (polyOf q), ← hf, sub_add_cancel]⟩

end Sys2Proof.Machine
end

section
/-! SUPPORT. The S-box and the inverses of the byte field (41_aes_round.md R130, R132): the affine map, bit by bit, and
what is left to evaluate over the 256 bytes of the table. -/

namespace Sys2Proof.Machine

/-! ## The affine map -/

/-- The affine map of the S-box: bit i is `q[i] ^ q[i+4] ^ q[i+5] ^ q[i+6] ^ q[i+7] ^ 0x63[i]` (R132). -/
def sboxAffine (q : Byte) : Byte :=
  q ^^^ q.rotateRight 4 ^^^ q.rotateRight 5 ^^^ q.rotateRight 6 ^^^ q.rotateRight 7 ^^^ 0x63

theorem getLsbD_rotateRight_byte (q : Byte) {i k : Nat} (hi : i < 8) (hk : k < 8) :
    (q.rotateRight k).getLsbD i = q.getLsbD ((i + k) % 8) := by
  rw [BitVec.getLsbD_rotateRight_of_lt hk, decide_eq_true hi, Bool.true_and]
  by_cases hwrap : i < 8 - k
  · rw [decide_eq_true hwrap, Nat.mod_eq_of_lt (by omega), Nat.add_comm]
    rfl
  · rw [decide_eq_false hwrap, show (i + k) % 8 = i - (8 - k) by omega]
    rfl

theorem getLsbD_sboxAffine (q : Byte) {i : Nat} (hi : i < 8) :
    (sboxAffine q).getLsbD i =
      (q.getLsbD i ^^ q.getLsbD ((i + 4) % 8) ^^ q.getLsbD ((i + 5) % 8) ^^ q.getLsbD ((i + 6) % 8) ^^
        q.getLsbD ((i + 7) % 8) ^^ (0x63#8).getLsbD i) := by
  have hrot := fun k (hk : k < 8) => getLsbD_rotateRight_byte q hi hk
  simp only [sboxAffine, BitVec.getLsbD_xor]
  rw [hrot 4 (by decide), hrot 5 (by decide), hrot 6 (by decide), hrot 7 (by decide)]
  rfl

/-- The affine map undone. -/
def sboxAffineUndo (y : Byte) : Byte := y.rotateRight 2 ^^^ y.rotateRight 5 ^^^ y.rotateRight 7 ^^^ 0x05

theorem sboxAffine_sboxAffineUndo : ∀ y, sboxAffine (sboxAffineUndo y) = y := by decide +kernel

/-! ## Inverses -/

/-- The inverse of a byte, and 0 for 0, as the S-box table has it: the q whose affine image is the byte's
entry (R132). -/
def gfInverse (b : Byte) : Byte := sboxAffineUndo (sbox b)

theorem gfInverse_zero : gfInverse 0 = 0 := rfl

/-- The table's q is the inverse in the field, at each of the 255 nonzero bytes (R130). -/
theorem gfMul_gfInverse : ∀ b, b ≠ 0 → gfMul b (gfInverse b) = 1 := by decide +kernel

theorem sbox_eq_sboxAffine (b : Byte) : sbox b = sboxAffine (gfInverse b) := (sboxAffine_sboxAffineUndo (sbox b)).symm

end Sys2Proof.Machine
end

section
/-! SUPPORT. The bytes of the four round transformations and of the two rounds (41_aes_round.md R133 to R139). -/

namespace Sys2Proof.Machine

/-! ## Each transformation, byte by byte -/

theorem byteOf_subBytes (s : Block) {i : Nat} (h : i < 16) : byteOf (subBytes s) i = sbox (byteOf s i) :=
  byteOf_fromBytes _ i h

theorem byteOf_shiftRows (s : Block) {i : Nat} (h : i < 16) :
    byteOf (shiftRows s) i = byteOf s (shiftRowsSource.getD i 0) :=
  byteOf_fromBytes _ i h

theorem shiftRowsSource_lt : ∀ i < 16, shiftRowsSource.getD i 0 < 16 := by decide

/-- The table SR is the rotation of row r by r columns (R134). -/
theorem shiftRowsSource_row : ∀ r < 4, ∀ c < 4, shiftRowsSource.getD (r + 4 * c) 0 = r + 4 * ((c + r) % 4) := by
  decide

theorem byteOf_shiftRows_row (s : Block) {r c : Nat} (hr : r < 4) (hc : c < 4) :
    byteOf (shiftRows s) (r + 4 * c) = byteOf s (r + 4 * ((c + r) % 4)) := by
  rw [byteOf_shiftRows s (by omega), shiftRowsSource_row r hr c hc]

/-- The byte that MixColumns leaves in row r of a column whose bytes are `a` (R135). -/
def mixedByte (a : Nat → Byte) : Nat → Byte
  | 0 => mul2 (a 0) ^^^ mul3 (a 1) ^^^ a 2 ^^^ a 3
  | 1 => a 0 ^^^ mul2 (a 1) ^^^ mul3 (a 2) ^^^ a 3
  | 2 => a 0 ^^^ a 1 ^^^ mul2 (a 2) ^^^ mul3 (a 3)
  | _ => mul3 (a 0) ^^^ a 1 ^^^ a 2 ^^^ mul2 (a 3)

/-- A mixed byte depends on the four bytes of its column alone. -/
theorem mixedByte_congr {a b : Nat → Byte} (h : ∀ k < 4, a k = b k) (r : Nat) : mixedByte a r = mixedByte b r := by
  unfold mixedByte
  rw [h 0 (by decide), h 1 (by decide), h 2 (by decide), h 3 (by decide)]

theorem wordByte_mixColumn (w : Word32) {r : Nat} (hr : r < 4) :
    wordByte (mixColumn w) r = mixedByte (wordByte w) r := by
  rw [mixColumn, wordByte_wordFromBytes _ _ _ _ r hr]
  interval_cases r <;> rfl

theorem wordOf_mixColumns (s : Block) {c : Nat} (hc : c < 4) : wordOf (mixColumns s) c = mixColumn (wordOf s c) := by
  rw [mixColumns, wordOf_fromWords _ _ _ _ c hc]
  interval_cases c <;> rfl

theorem byteOf_mixColumns (s : Block) {c r : Nat} (hc : c < 4) (hr : r < 4) :
    byteOf (mixColumns s) (4 * c + r) = mixedByte (fun k => byteOf s (4 * c + k)) r := by
  rw [← wordByte_wordOf _ c r hr, wordOf_mixColumns s hc, wordByte_mixColumn _ hr]
  exact mixedByte_congr (wordByte_wordOf s c) r

theorem byteOf_addRoundKey (s k : Block) (i : Nat) : byteOf (addRoundKey s k) i = byteOf s i ^^^ byteOf k i :=
  BitVec.extractLsb'_xor

/-! ## The two rounds, byte by byte -/

/-- The byte that SubBytes and ShiftRows bring to row r of column c (R133, R134). -/
def shiftedByte (s : Block) (c r : Nat) : Byte := sbox (byteOf s (r + 4 * ((c + r) % 4)))

theorem byteOf_shiftRows_subBytes (s : Block) {c r : Nat} (hc : c < 4) (hr : r < 4) :
    byteOf (shiftRows (subBytes s)) (r + 4 * c) = shiftedByte s c r := by
  rw [byteOf_shiftRows_row _ hr hc, byteOf_subBytes _ (by omega), shiftedByte]

theorem byteOf_aesRound (s k : Block) {c r : Nat} (hc : c < 4) (hr : r < 4) :
    byteOf (aesRound s k) (4 * c + r) = mixedByte (shiftedByte s c) r ^^^ byteOf k (4 * c + r) := by
  rw [aesRound, byteOf_addRoundKey, byteOf_mixColumns _ hc hr]
  congr 1
  refine mixedByte_congr (fun j hj => ?_) r
  rw [Nat.add_comm (4 * c) j, byteOf_shiftRows_subBytes s hc hj]

theorem byteOf_aesRoundLast (s k : Block) {c r : Nat} (hc : c < 4) (hr : r < 4) :
    byteOf (aesRoundLast s k) (r + 4 * c) = shiftedByte s c r ^^^ byteOf k (r + 4 * c) := by
  rw [aesRoundLast, byteOf_addRoundKey, byteOf_shiftRows_subBytes s hc hr]

/-! ## Lanes (R139) -/

theorem shiftRows_subBytes (s : Block) : shiftRows (subBytes s) = subBytes (shiftRows s) :=
  block_ext_bytes fun i hi => by
    rw [byteOf_shiftRows _ hi, byteOf_subBytes _ (shiftRowsSource_lt i hi), byteOf_subBytes _ hi, byteOf_shiftRows _ hi]

theorem subBytes_uniform (u : Byte) : subBytes (fromBytes fun _ => u) = fromBytes fun _ => sbox u :=
  block_ext_bytes fun i hi => by
    rw [byteOf_subBytes _ hi, byteOf_fromBytes _ i hi, byteOf_fromBytes _ i hi]

theorem shiftRows_uniform (u : Byte) : shiftRows (fromBytes fun _ => u) = fromBytes fun _ => u :=
  block_ext_bytes fun i hi => by
    rw [byteOf_shiftRows _ hi, byteOf_fromBytes _ _ (shiftRowsSource_lt i hi), byteOf_fromBytes _ i hi]

/-- A column of four equal bytes stays as it is: mul3 is mul2 plus the byte, so the two products leave the byte. -/
theorem mixedByte_uniform (u : Byte) (r : Nat) : mixedByte (fun _ => u) r = u := by
  have hmul3 : mul3 u = mul2 u ^^^ u := rfl
  unfold mixedByte
  split <;> rw [hmul3] <;> grind

theorem mixColumns_uniform (u : Byte) : mixColumns (fromBytes fun _ => u) = fromBytes fun _ => u :=
  block_ext_bytes fun i hi => by
    have hrow : i % 4 < 4 := Nat.mod_lt _ (by decide)
    have hcol : i / 4 < 4 := by omega
    have hcolumn : ∀ k < 4, byteOf (fromBytes fun _ => u) (4 * (i / 4) + k) = u := fun k hk =>
      byteOf_fromBytes _ _ (by omega)
    rw [← Nat.div_add_mod i 4, byteOf_mixColumns _ hcol hrow, mixedByte_congr hcolumn, mixedByte_uniform,
      hcolumn _ hrow]

theorem addRoundKey_zero (s : Block) : addRoundKey s 0 = s := BitVec.xor_zero

theorem aesRound_uniform (u : Byte) : aesRound (fromBytes fun _ => u) 0 = fromBytes fun _ => sbox u := by
  rw [aesRound, subBytes_uniform, shiftRows_uniform, mixColumns_uniform, addRoundKey_zero]

theorem aesRoundLast_uniform (u : Byte) : aesRoundLast (fromBytes fun _ => u) 0 = fromBytes fun _ => sbox u := by
  rw [aesRoundLast, subBytes_uniform, shiftRows_uniform, addRoundKey_zero]

end Sys2Proof.Machine
end

section
/-! The statements about the AES round (41_aes_round.md). -/

namespace Sys2Proof.Machine

/-- Settles O34: the byte product is the product of the quotient ring, 0x11B being 0 there; the inverses
are those of the S-box table. -/
theorem byteFieldIsPolynomialsModulo0x11B : Obligations.ByteFieldIsPolynomialsModulo0x11B := by
  refine ⟨fun a b => ?_, fun b => ⟨xtime_eq_gfMul b, xtime_eq_gfMul b, mul3_eq_gfMul b⟩,
    fun a ha => ⟨gfInverse a, gfMul_gfInverse a ha⟩⟩
  obtain ⟨q, hq⟩ := polyOf_mul_eq a b
  refine ⟨q, polyOf_injective ?_⟩
  rw [polyOf_clmul64, polyOf_xor, polyOf_clmul64, polyOf_setWidth a (by decide), polyOf_setWidth b (by decide),
    polyOf_setWidth (gfMul a b) (by decide), polyOf_half_0x11B, hq]

/-- Settles O37: the table SR is the rotation of the rows. -/
theorem shiftRowsRotatesRows : Obligations.ShiftRowsRotatesRows := fun s =>
  ⟨fun _ _ hr hc => byteOf_shiftRows_row s hr hc, fun _ hi => byteOf_shiftRows s hi⟩

/-- Settles O38: each of the four rows of a column in turn. -/
theorem mixColumnsMixesEachColumn : Obligations.MixColumnsMixesEachColumn := fun s _ hc =>
  have hrow := fun r (hr : r < 4) => byteOf_mixColumns s hc hr
  ⟨hrow 0 (by decide), hrow 1 (by decide), hrow 2 (by decide), hrow 3 (by decide)⟩

/-- Settles O39: every transformation keeps a uniform block uniform, and only SubBytes changes its byte. -/
theorem roundLaneStructure : Obligations.RoundLaneStructure :=
  ⟨shiftRows_subBytes, fun u => ⟨aesRound_uniform u, aesRoundLast_uniform u⟩⟩

/-- Settles O40: AESENC answers the round, each of the four rows of a column in turn. -/
theorem aesencReturnsTheFullRound : Obligations.AesencReturnsTheFullRound := fun _ t ht =>
  ⟨aesRound t.command.a t.command.b, exec_completes .aesenc ht rfl rfl, fun _ hc =>
    have hrow := fun r (hr : r < 4) => byteOf_aesRound t.command.a t.command.b hc hr
    ⟨hrow 0 (by decide), hrow 1 (by decide), hrow 2 (by decide), hrow 3 (by decide)⟩⟩

/-- Settles O41: AESENCLAST answers the final round. -/
theorem aesenclastReturnsTheFinalRound : Obligations.AesenclastReturnsTheFinalRound := fun _ t ht =>
  ⟨aesRoundLast t.command.a t.command.b, exec_completes .aesenclast ht rfl rfl, fun _ _ hr hc =>
    byteOf_aesRoundLast t.command.a t.command.b hc hr⟩

/-- Settles O35: q is the byte whose affine image the entry is, and the field product confirms it is the inverse. -/
theorem sboxIsTheAffineMapOfTheInverse : Obligations.SboxIsTheAffineMapOfTheInverse := fun b =>
  ⟨gfInverse b, fun hb => by rw [hb, gfInverse_zero], gfMul_gfInverse b, fun _ hi => by
    rw [sbox_eq_sboxAffine, getLsbD_sboxAffine _ hi]⟩

/-- Settles O36: each byte of `fromBytes` is the byte it was given. -/
theorem subBytesActsOnEachByte : Obligations.SubBytesActsOnEachByte := fun s _ hi => byteOf_subBytes s hi

end Sys2Proof.Machine
end

section
/-! SUPPORT. The words of the key schedules (42_key_schedule.md R160 to R169): the word functions byte by byte, and the
word recurrence that a schedule meets wherever a round key is chained from an earlier one. -/

namespace Sys2Proof.Machine

/-! ## Words by their bytes -/

theorem getLsbD_wordByte (w : Word32) (k : Nat) {j : Nat} (hj : j < 8) :
    (wordByte w k).getLsbD j = w.getLsbD (8 * k + j) := by
  simp [wordByte, hj]

/-- Two words with the same bytes are equal. -/
theorem word_ext_bytes {u v : Word32} (h : ∀ k, k < 4 → wordByte u k = wordByte v k) : u = v := by
  refine BitVec.eq_of_getLsbD_eq fun j hj => ?_
  have hbit : (wordByte u (j / 8)).getLsbD (j % 8) = (wordByte v (j / 8)).getLsbD (j % 8) := by rw [h _ (by omega)]
  have hmod : j % 8 < 8 := Nat.mod_lt _ (by decide)
  rwa [getLsbD_wordByte _ _ hmod, getLsbD_wordByte _ _ hmod, Nat.div_add_mod] at hbit

theorem wordByte_xor (u v : Word32) (k : Nat) : wordByte (u ^^^ v) k = wordByte u k ^^^ wordByte v k :=
  BitVec.extractLsb'_xor

theorem wordByte_rcon (j : Nat) {k : Nat} (hk : k < 4) :
    wordByte (rcon j) k = [roundConstants.getD (j - 1) 0, 0, 0, 0].getD k 0 :=
  wordByte_wordFromBytes _ _ _ _ k hk

theorem wordByte_subWord (u : Word32) {k : Nat} (hk : k < 4) : wordByte (subWord u) k = sbox (wordByte u k) := by
  rw [subWord, wordByte_wordFromBytes _ _ _ _ k hk]
  interval_cases k <;> rfl

theorem wordByte_rotWord (u : Word32) {k : Nat} (hk : k < 4) :
    wordByte (rotWord u) k = wordByte u ((k + 1) % 4) := by
  rw [rotWord, wordByte_wordFromBytes _ _ _ _ k hk]
  interval_cases k <;> rfl

/-- SubWord acts on each byte alone and RotWord only moves bytes. -/
theorem subWord_rotWord (u : Word32) : subWord (rotWord u) = rotWord (subWord u) :=
  word_ext_bytes fun k hk => by
    rw [wordByte_subWord _ hk, wordByte_rotWord _ hk, wordByte_rotWord _ hk,
      wordByte_subWord _ (Nat.mod_lt _ (by decide))]

/-- The mask 0xFF has the lowest byte set. -/
theorem getLsbD_byteMask {j : Nat} (hj : j < 8) : (0xFF : Word32).getLsbD j = true := by
  interval_cases j <;> rfl

/-- RotWord as a rotation right by 8 bits (R161): the shift right gives bytes 0 to 2, the masked byte is byte 3. -/
theorem rotWord_eq_rotate (u : Word32) : rotWord u = (u >>> 8) ||| ((u &&& 0xFF) <<< 24) := by
  refine word_ext_bytes fun k hk => BitVec.eq_of_getLsbD_eq fun j hj => ?_
  rw [wordByte_rotWord u hk, getLsbD_wordByte _ _ hj, getLsbD_wordByte _ _ hj, BitVec.getLsbD_or,
    BitVec.getLsbD_ushiftRight, BitVec.getLsbD_shiftLeft, BitVec.getLsbD_and]
  rcases Nat.lt_succ_iff_lt_or_eq.mp hk with hlow | rfl
  · have hbit : 8 * ((k + 1) % 4) + j = 8 + (8 * k + j) := by omega
    have hmasked : 8 * k + j < 24 := by omega
    simp [hbit, hmasked]
  · have hshifted : u.getLsbD (8 + (8 * 3 + j)) = false := BitVec.getLsbD_of_ge _ _ (by omega)
    have hbit : 8 * 3 + j - 24 = j := by omega
    have hin : 8 * 3 + j < 32 := by omega
    rw [hshifted, hbit, getLsbD_byteMask hj]
    simp [hin]

/-! ## The word recurrence -/

/-- Word i of a sequence of round keys, four to a round key (R164, R169). -/
def scheduleWord (rk : Nat → Block) (i : Nat) : Word32 := wordOf (rk (i / 4)) (i % 4)

/-- Each new word is the old one XORed with the new word before it, the first with the term (R162, R168). -/
theorem wordOf_chainWords (p : Block) (t : Word32) {c : Nat} (hc : c < 4) :
    wordOf (chainWords p t) c = wordOf p c ^^^ if c = 0 then t else wordOf (chainWords p t) (c - 1) := by
  simp only [chainWords]
  rw [wordOf_fromWords _ _ _ _ c hc, wordOf_fromWords _ _ _ _ (c - 1) (by omega)]
  interval_cases c <;> rfl

/-- The recurrence of the words of a round key that is chained from the one d before it, its term `f` of the word before
it. -/
theorem scheduleWord_of_chainWords {rk : Nat → Block} {i d : Nat} (f : Word32 → Word32) (h1 : 1 ≤ d) (hd : d ≤ i / 4)
    (h : rk (i / 4) = chainWords (rk (i / 4 - d)) (f (wordOf (rk (i / 4 - 1)) 3))) :
    scheduleWord rk i = scheduleWord rk (i - 4 * d) ^^^
      if i % 4 = 0 then f (scheduleWord rk (i - 1)) else scheduleWord rk (i - 1) := by
  have hold : scheduleWord rk (i - 4 * d) = wordOf (rk (i / 4 - d)) (i % 4) := by
    rw [scheduleWord, show (i - 4 * d) / 4 = i / 4 - d by omega, show (i - 4 * d) % 4 = i % 4 by omega]
  rw [hold, scheduleWord, h, wordOf_chainWords _ _ (Nat.mod_lt _ (by decide)), ← h]
  congr 1
  by_cases hc : i % 4 = 0
  · rw [if_pos hc, if_pos hc, scheduleWord, show (i - 1) / 4 = i / 4 - 1 by omega, show (i - 1) % 4 = 3 by omega]
  · rw [if_neg hc, if_neg hc, scheduleWord, show (i - 1) / 4 = i / 4 by omega,
      show (i - 1) % 4 = i % 4 - 1 by omega]

/-! ## The two schedules -/

theorem expand128_getElem (k : Block) {r : Nat} (h : r < 11) : (expand128 k)[r] = roundKey128 k r :=
  Vector.getElem_ofFn h

theorem expand256_getElem (a b : Block) {r : Nat} (h : r < 15) : (expand256 a b)[r] = roundKey256 a b r :=
  Vector.getElem_ofFn h

theorem roundKey128_step (k : Block) {r : Nat} (h : 1 ≤ r) :
    roundKey128 k r = keyStep128 (roundKey128 k (r - 1)) r := by
  obtain ⟨m, rfl⟩ := Nat.exists_eq_add_of_le' h
  rfl

theorem roundKey256_even (a b : Block) (j : Nat) : roundKey256 a b (2 * j) = (roundKeys256 a b j).1 := by
  rw [roundKey256, if_pos (by omega), show 2 * j / 2 = j by omega]

theorem roundKey256_odd (a b : Block) (j : Nat) : roundKey256 a b (2 * j + 1) = (roundKeys256 a b j).2 := by
  rw [roundKey256, if_neg (by omega), show (2 * j + 1) / 2 = j by omega]

theorem roundKey256_even_step (a b : Block) {j : Nat} (h : 1 ≤ j) :
    roundKey256 a b (2 * j) = keyStep256Even (roundKey256 a b (2 * j - 2)) (roundKey256 a b (2 * j - 1)) j := by
  obtain ⟨m, rfl⟩ := Nat.exists_eq_add_of_le' h
  rw [show 2 * (m + 1) - 2 = 2 * m by omega, show 2 * (m + 1) - 1 = 2 * m + 1 by omega, roundKey256_even,
    roundKey256_even, roundKey256_odd]
  rfl

theorem roundKey256_odd_step (a b : Block) {j : Nat} (h : 1 ≤ j) :
    roundKey256 a b (2 * j + 1) = keyStep256Odd (roundKey256 a b (2 * j - 1)) (roundKey256 a b (2 * j)) := by
  obtain ⟨m, rfl⟩ := Nat.exists_eq_add_of_le' h
  rw [show 2 * (m + 1) - 1 = 2 * m + 1 by omega, roundKey256_even, roundKey256_odd, roundKey256_odd]
  rfl

/-- The word recurrence of Expand128 (R164). -/
theorem scheduleWord_roundKey128 (k : Block) {i : Nat} (h4 : 4 ≤ i) :
    scheduleWord (roundKey128 k) i = scheduleWord (roundKey128 k) (i - 4) ^^^
      if i % 4 = 0 then subWord (rotWord (scheduleWord (roundKey128 k) (i - 1))) ^^^ rcon (i / 4)
      else scheduleWord (roundKey128 k) (i - 1) := by
  have h1 : 1 ≤ i / 4 := by omega
  rw [scheduleWord_of_chainWords (fun x => subWord (rotWord x) ^^^ rcon (i / 4)) le_rfl h1 (roundKey128_step k h1)]

/-- The word recurrence of Expand256 (R169): the words of an even round key, then those of an odd one. -/
theorem scheduleWord_roundKey256 (a b : Block) {i : Nat} (h8 : 8 ≤ i) :
    scheduleWord (roundKey256 a b) i = scheduleWord (roundKey256 a b) (i - 8) ^^^
      if i % 8 = 0 then subWord (rotWord (scheduleWord (roundKey256 a b) (i - 1))) ^^^ rcon (i / 8)
      else if i % 8 = 4 then subWord (scheduleWord (roundKey256 a b) (i - 1))
      else scheduleWord (roundKey256 a b) (i - 1) := by
  have h1 : 1 ≤ i / 8 := by omega
  have h2 : 2 ≤ i / 4 := by omega
  by_cases heven : i % 8 < 4
  · have hstep := roundKey256_even_step a b h1
    rw [show 2 * (i / 8) = i / 4 by omega] at hstep
    have hfirst : i % 4 = 0 ↔ i % 8 = 0 := by omega
    have hno : i % 8 ≠ 4 := by omega
    rw [scheduleWord_of_chainWords (fun x => subWord (rotWord x) ^^^ rcon (i / 8)) (by decide) h2 hstep, if_neg hno]
    simp only [hfirst]
  · have hstep := roundKey256_odd_step a b h1
    rw [show 2 * (i / 8) + 1 = i / 4 by omega, show 2 * (i / 8) - 1 = i / 4 - 2 by omega,
      show 2 * (i / 8) = i / 4 - 1 by omega] at hstep
    have hfirst : i % 4 = 0 ↔ i % 8 = 4 := by omega
    have hno : i % 8 ≠ 0 := by omega
    rw [scheduleWord_of_chainWords subWord (by decide) h2 hstep, if_neg hno]
    simp only [hfirst]

/-! ## The commands -/

/-- The check of a read SLOT passes a loaded slot of the file. -/
theorem withSchedule_pass {s : State} {n : Nat} (hn : n < s.nks) (ht : (s.slot n).tag ≠ .empty) (f : Slot → Effect) :
    withSchedule s n f = f (s.slot n) := by
  rw [withSchedule, withSlot, if_neg (by omega), if_neg ht]

/-- A round key of a slot's schedule is read (R172). -/
theorem readKey_pass {e : Slot} {r : Nat} (h : r ≤ lastIndex e.tag) : readKey e r = respond (e.key r) 0 :=
  if_neg (by omega)

end Sys2Proof.Machine
end

section
/-! The statements about the key schedules (42_key_schedule.md). -/

namespace Sys2Proof.Machine

/-- Settles O42: each byte of each word function in turn. -/
theorem wordFunctionsInByteForm : Obligations.WordFunctionsInByteForm :=
  ⟨fun j _ _ => ⟨wordByte_rcon j (by decide), wordByte_rcon j (by decide), wordByte_rcon j (by decide),
      wordByte_rcon j (by decide)⟩,
    fun u v => ⟨fun k hk => ⟨wordByte_subWord u hk, wordByte_rotWord u hk, wordByte_xor u v k⟩, rotWord_eq_rotate u,
      subWord_rotWord u⟩⟩

/-- Settles O43: a round key of Expand128 is chained from the one before it. -/
theorem expand128IsTheWordRecurrence : Obligations.Expand128IsTheWordRecurrence := fun k =>
  ⟨fun _ h => expand128_getElem k h, rfl, fun _ h _ => roundKey128_step k h, fun _ h4 _ =>
    scheduleWord_roundKey128 k h4⟩

/-- Settles O44: a round key of Expand256 is chained from the one two before it. -/
theorem expand256IsTheWordRecurrence : Obligations.Expand256IsTheWordRecurrence := by
  intro a b
  refine ⟨fun _ h => expand256_getElem a b h, roundKey256_even a b 0, roundKey256_odd a b 0,
    fun _ h _ => ⟨roundKey256_even_step a b h, roundKey256_odd_step a b h⟩,
    roundKey256_even_step a b (j := 7) (by decide), fun i hi => ?_, fun _ h8 _ => scheduleWord_roundKey256 a b h8⟩
  interval_cases i <;> exact ⟨rfl, rfl⟩

/-- Settles O45: a loadable slot of the file passes the check, and the slot made of the schedule has zeros above it. -/
theorem keyexp128LoadsTheSchedule : Obligations.Keyexp128LoadsTheSchedule := fun _ t n ht h1 hn =>
  have h0 : n ≠ 0 := Nat.ne_of_gt h1
  ⟨Slot.ofAes128 (expand128 t.command.a), exec_loads (.keyexp128 n) ht (withLoadable_pass h0 hn _) h0 hn, rfl,
    fun _ hr => (key_ofAes128_low _ (Nat.lt_succ_of_le hr)).trans (expand128_getElem _ _),
    fun _ hr _ => key_ofAes128_high _ hr⟩

/-- Settles O46: a loadable slot of the file passes the check, and the slot holds the whole schedule. -/
theorem keyexp256LoadsTheSchedule : Obligations.Keyexp256LoadsTheSchedule := fun _ t n ht h1 hn =>
  have h0 : n ≠ 0 := Nat.ne_of_gt h1
  ⟨Slot.ofAes256 (expand256 t.command.a t.command.b),
    exec_loads (.keyexp256 n) ht (withLoadable_pass h0 hn _) h0 hn, rfl,
    fun _ hr => (key_ofAes256 _ (Nat.lt_succ_of_le hr)).trans (expand256_getElem _ _ _)⟩

/-- Settles O47: a loaded slot passes the check of SLOT, and an index of its schedule that of IDX. -/
theorem rkreadReturnsTheRoundKey : Obligations.RkreadReturnsTheRoundKey := by
  intro s t n r ht hn hkey
  have hloaded : (s.slot n).tag ≠ .empty ∧ r ≤ lastIndex (s.slot n).tag := by
    rcases hkey with ⟨htag, hr⟩ | ⟨htag, hr⟩ <;> rw [htag] <;> exact ⟨by decide, hr⟩
  obtain ⟨htag, hr⟩ := hloaded
  have hrule : ruleOf (.rkread n r) s t.command = respond ((s.slot n).key r) 0 := by
    rw [ruleOf, withSchedule_pass hn htag, readKey_pass hr]
  exact exec_completes (.rkread n r) ht hrule rfl

end Sys2Proof.Machine
end

section
/-! SUPPORT. Encryption over the round keys of a slot (43_encrypt.md): both variants start with one iteration of the full
round, over different numbers of round keys. -/

namespace Sys2Proof.Machine

/-- The full rounds 1 to `rounds` under a vector of round keys, over any function that gives those keys (R190, R191). -/
theorem foldl_aesRound_congr {m rounds : Nat} {keys : Vector Block m} {rk : Nat → Block} (hrounds : rounds < m)
    (hkeys : ∀ r, (h : r < m) → keys[r] = rk r) (x : Block) :
    (List.range' 1 rounds).foldl (fun s r => aesRound s ((keys[r]?).getD 0)) x =
      (List.range' 1 rounds).foldl (fun s r => aesRound s (rk r)) x := by
  refine List.foldl_ext _ _ x fun s r hr => congrArg (aesRound s) ?_
  have hlt : r < m := by
    have := (List.mem_range'_1.mp hr).2
    omega
  rw [Vector.getElem?_eq_getElem hlt, Option.getD_some, hkeys r hlt]

theorem keys128_getElem (e : Slot) {r : Nat} (h : r < 11) : e.keys128[r] = e.key r := by
  rw [key_of_lt e (by omega), Slot.keys128, Vector.getElem_ofFn]

/-- Encrypt128 under the schedule of a slot, over the slot's round keys (R190). -/
theorem encrypt128_keys128 (e : Slot) (x : Block) :
    encrypt128 e.keys128 x =
      aesRoundLast ((List.range' 1 9).foldl (fun s r => aesRound s (e.key r)) (x ^^^ e.key 0)) (e.key 10) := by
  rw [encrypt128, foldl_aesRound_congr (by decide) (fun _ h => keys128_getElem e h), keys128_getElem, keys128_getElem,
    addRoundKey]

/-- Encrypt256 under the schedule of a slot, over the slot's round keys (R191). -/
theorem encrypt256_rk (e : Slot) (x : Block) :
    encrypt256 e.rk x =
      aesRoundLast ((List.range' 1 13).foldl (fun s r => aesRound s (e.key r)) (x ^^^ e.key 0)) (e.key 14) := by
  rw [encrypt256, foldl_aesRound_congr (by decide) (fun _ h => (key_of_lt e h).symm), key_of_lt e (by decide),
    key_of_lt e (by decide), addRoundKey]

/-- A slot with the tag AES128 encrypts with Encrypt128 (R194). -/
theorem encryptSlot_of_tag_aes128 {e : Slot} (h : e.tag = .aes128) (x : Block) :
    encryptSlot e x = respond (encrypt128 e.keys128 x) 0 := by
  rw [encryptSlot, h]

/-- A slot with the tag AES256 encrypts with Encrypt256 (R194). -/
theorem encryptSlot_of_tag_aes256 {e : Slot} (h : e.tag = .aes256) (x : Block) :
    encryptSlot e x = respond (encrypt256 e.rk x) 0 := by
  rw [encryptSlot, h]

end Sys2Proof.Machine
end

section
/-! The statements about single-block encryption (43_encrypt.md). -/

namespace Sys2Proof.Machine

/-- Settles O53: the tag selects Encrypt128, and the schedule it runs on is the slot's first eleven round keys. -/
theorem encOnAnAes128Slot : Obligations.EncOnAnAes128Slot := by
  intro s t n ht hn htag
  have hrule := (ruleOf_enc hn t.command).trans (encryptSlot_of_tag_aes128 htag t.command.a)
  rw [encrypt128_keys128] at hrule
  exact exec_completes (.enc n) ht hrule rfl

/-- Settles O54: the tag selects Encrypt256, and the schedule it runs on is all fifteen round keys of the slot. -/
theorem encOnAnAes256Slot : Obligations.EncOnAnAes256Slot := by
  intro s t n ht hn htag
  have hrule := (ruleOf_enc hn t.command).trans (encryptSlot_of_tag_aes256 htag t.command.a)
  rw [encrypt256_rk] at hrule
  exact exec_completes (.enc n) ht hrule rfl

end Sys2Proof.Machine
end

section
/-! SUPPORT. The hash engine (44_hash.md): sigma by its halves, and the check of SLOT that the three hash commands share. -/

namespace Sys2Proof.Machine

/-! ## sigma -/

theorem lo_xor (v w : Block) : lo (v ^^^ w) = lo v ^^^ lo w := BitVec.extractLsb'_xor

theorem hi_xor (v w : Block) : hi (v ^^^ w) = hi v ^^^ hi w := BitVec.extractLsb'_xor

@[simp] theorem lo_sigma (x : Block) : lo (sigma x) = hi x ^^^ lo x := lo_mk128 _ _

@[simp] theorem hi_sigma (x : Block) : hi (sigma x) = lo x := hi_mk128 _ _

/-- Adding a block to its sigma is sigma twice: on the two halves, sigma is a root of z^2 + z + 1. -/
theorem sigma_xor_self (x : Block) : sigma x ^^^ x = sigma (sigma x) := by
  refine block_ext_halves ?_ ?_
  · rw [hi_xor, hi_sigma, hi_sigma, lo_sigma, BitVec.xor_comm]
  · rw [lo_xor, lo_sigma, lo_sigma, lo_sigma, hi_sigma, BitVec.xor_comm (lo x)]

theorem sigma_sigma (x : Block) : sigma (sigma x) = mk128 (hi x ^^^ lo x) (hi x) := by
  refine block_ext_halves ?_ ?_
  · rw [hi_sigma, lo_sigma, hi_mk128]
  · rw [lo_sigma, hi_sigma, lo_sigma, lo_mk128, BitVec.xor_comm, BitVec.xor_assoc, BitVec.xor_self, BitVec.xor_zero]

/-- sigma has order three. -/
theorem sigma_sigma_sigma (x : Block) : sigma (sigma (sigma x)) = x := by
  rw [← sigma_xor_self (sigma x), ← sigma_xor_self x, BitVec.xor_comm (sigma x), BitVec.xor_assoc, BitVec.xor_self,
    BitVec.xor_zero]

theorem sigma_bijective : Function.Bijective sigma :=
  Function.bijective_iff_has_inverse.mpr ⟨fun x => sigma (sigma x), sigma_sigma_sigma, sigma_sigma_sigma⟩

/-! ## The commands -/

/-- The check of a hash command's SLOT passes an AES-128 slot of the file, slot 0 included. -/
theorem withSchedule128_pass {s : State} {n : Nat} (hn : n < s.nks) (ht : (s.slot n).tag = .aes128)
    (f : Vector Block 11 → Effect) : withSchedule128 s n f = f (s.slot n).keys128 := by
  have hloaded : (s.slot n).tag ≠ .empty := by
    rw [ht]
    decide
  rw [withSchedule128, withSchedule_pass hn hloaded, if_pos ht]

/-- A command whose rule is a hash under the schedule of an AES-128 slot of the file completes with that hash of the
tweak B and the block A (R214 to R216). -/
theorem exec_completes_hash (i : Instr) (hash : Vector Block 11 → Block → Block → Block) {s : State} {t : Txn} {n : Nat}
    (h : s.txn = some t) (hn : n < s.nks) (htag : (s.slot n).tag = .aes128)
    (hi : ruleOf i s t.command = withSchedule128 s n fun rk => respond (hash rk t.command.b t.command.a) 0) :
    Completes s t (exec i s) .ok (hash (s.slot n).keys128 t.command.b t.command.a) 0 :=
  exec_completes i h (hi.trans (withSchedule128_pass hn htag _)) rfl

end Sys2Proof.Machine
end

section
/-! The statements about the correlation-robust hash (44_hash.md). -/

namespace Sys2Proof.Machine

/-- Settles O55: an AES-128 slot passes the check, and CR is computed under its first eleven round keys. -/
theorem crhashReturnsCr : Obligations.CrhashReturnsCr := fun _ _ n ht hn htag =>
  exec_completes_hash (.crhash n) crHash ht hn htag rfl

/-- Settles O56: an AES-128 slot passes the check, and CCR is CR of sigma(x). -/
theorem ccrhashReturnsCcr : Obligations.CcrhashReturnsCcr := fun _ _ n ht hn htag =>
  exec_completes_hash (.ccrhash n) ccrHash ht hn htag rfl

/-- Settles O57: an AES-128 slot passes the check, and TCCR is computed with the tweak in B. -/
theorem tccrhashReturnsTccr : Obligations.TccrhashReturnsTccr := fun _ _ n ht hn htag =>
  exec_completes_hash (.tccrhash n) tccrHash ht hn htag rfl

/-- Settles O58: sigma has order three, so sigma and sigma twice, which is sigma(x) ^ x, are permutations. -/
theorem sigmaIsAPermutation : Obligations.SigmaIsAPermutation := by
  refine ⟨fun x => ⟨lo_sigma x, hi_sigma x, (sigma_xor_self x).trans (sigma_sigma x), sigma_sigma_sigma x⟩,
    sigma_bijective, ?_⟩
  rw [funext sigma_xor_self]
  exact sigma_bijective.comp sigma_bijective

end Sys2Proof.Machine
end

section
/-! SUPPORT. The commands that use no field of their word (30_encoding.md R85): the OP value alone determines them, so
every other word with that OP is refused. -/

namespace Sys2Proof.Machine

/-- An OP value whose row of the map uses neither SLOT nor IDX is that of one command only (R85, R86). -/
theorem eq_of_opcode_eq {i j : Instr} {row : OpcodeRow} (hrow : opcodeRow i.opcode = some row)
    (hslot : row.usesSlot = false) (hidx : row.usesIdx = false) (h : j.opcode = i.opcode) : j = i := by
  have make_zero : ∀ k : Instr, k.opcode = i.opcode → row.make 0 0 = k := fun k hk => by
    obtain ⟨row', hrow', hmake, hs, hi⟩ := opcodeRow_opcode k
    obtain rfl : row = row' := Option.some.inj (hrow.symm.trans (hk ▸ hrow'))
    rwa [hs hslot, hi hidx] at hmake
  exact (make_zero j h).symm.trans (make_zero i rfl)

/-- A word with the OP of a command that uses no field is that command's word, or it is refused (R87). -/
theorem decodeWord_of_ne_encode {i : Instr} {row : OpcodeRow} (hrow : opcodeRow i.opcode = some row)
    (hslot : row.usesSlot = false) (hidx : row.usesIdx = false) {w : Word32} (hop : opField w = i.opcode)
    (hw : w ≠ encode i) : decodeWord w = .error .reservedField := by
  rcases decodeWord_cases w with ⟨hillegal, _⟩ | ⟨_, _, he⟩ | ⟨_, _, j, hj, hjop, _, _⟩
  · rw [hop, ← opcodeRow_none, hrow] at hillegal
    cases hillegal
  · exact he
  · have hji : j = i := eq_of_opcode_eq hrow hslot hidx (hjop.trans hop)
    exact absurd (hji ▸ (encodeOfDecodeIsTheWord w j hj).2.symm) hw

end Sys2Proof.Machine
end

section
/-! The statements about the control commands (45_control.md). -/

namespace Sys2Proof.Machine

/-- Settles O29: IDREAD's rule answers IDR, which is a function of NKS, and no step changes NKS. -/
theorem idreadReturnsIdr : Obligations.IdreadReturnsIdr := by
  refine ⟨rfl, fun w hop hw => decodeWord_of_ne_encode (i := .idread) rfl rfl rfl hop hw,
    fun _ _ ht => exec_completes .idread ht rfl rfl, fun _ _ h => idr_congr h, fun _ _ h => step_idr h, fun s h => ?_⟩
  rw [idr_eq (by omega), h]
  rfl

/-- Settles O28: NOP uses no field, so 0 is its only word, and its rule answers two zeros from no operand. -/
theorem nopRespondsZero : Obligations.NopRespondsZero :=
  ⟨rfl, decodeWord_encode (i := .nop) rfl, fun _ hop hw => decodeWord_of_ne_encode (i := .nop) rfl rfl rfl hop hw, rfl,
    fun _ _ ht => exec_completes .nop ht rfl rfl⟩

end Sys2Proof.Machine
end

section
/-! SUPPORT. The errors of a command (60_exceptions.md R252 to R260): the conditions that each check of a SLOT or IDX
operand tests, that the check answers the first of them in the priority order, and that these are the conditions R252 to
R258 read from the command word. -/

namespace Sys2Proof.Machine

/-! ## The first error in the priority order -/

/-- The effect reports the first of the conditions that hold (R259): it completes with OK where none holds, else it
raises an error whose condition holds and before which, in the order, none does. -/
def Reports (holds : Status → Prop) (e : Effect) : Prop :=
  (e.status = .ok ∧ ∀ st, ¬ holds st) ∨
    ∃ st, e = raise st ∧ holds st ∧ ∀ st', holds st' → st.priority ≤ st'.priority

theorem reports_ok {holds : Status → Prop} {e : Effect} (he : e.status = .ok) (h : ∀ st, ¬ holds st) :
    Reports holds e := .inl ⟨he, h⟩

theorem reports_raise {holds : Status → Prop} {st : Status} (hst : holds st)
    (hfirst : ∀ st', holds st' → st.priority ≤ st'.priority) : Reports holds (raise st) :=
  .inr ⟨st, rfl, hst, hfirst⟩

theorem Reports.congr {holds holds' : Status → Prop} {e : Effect} (h : Reports holds e)
    (hiff : ∀ st, holds' st ↔ holds st) : Reports holds' e := by
  rwa [funext fun st => propext (hiff st)]

/-! ## The conditions of each check -/

/-- The conditions of a SLOT operand that is written (R254, R255). -/
def LoadableError (s : State) (n : Nat) (st : Status) : Prop :=
  (st = .slotRange ∧ s.nks ≤ n) ∨ (st = .slotReadonly ∧ n = 0)

/-- The conditions of a SLOT operand whose schedule is read (R255, R256), and the further ones of what reads it. -/
def ScheduleError (s : State) (n : Nat) (further : Slot → Status → Prop) (st : Status) : Prop :=
  (st = .slotRange ∧ s.nks ≤ n) ∨ (st = .slotEmpty ∧ (s.slot n).tag = .empty) ∨ further (s.slot n) st

/-- A hash command's own condition: the slot holds an AES-256 schedule (R257). -/
def HashError (k : Slot) (st : Status) : Prop := st = .slotVariant ∧ k.tag = .aes256

/-- RKREAD's own condition: IDX is beyond the slot's schedule (R258). -/
def IndexError (r : Nat) (k : Slot) (st : Status) : Prop :=
  st = .indexRange ∧ ((k.tag = .aes128 ∧ 10 < r) ∨ (k.tag = .aes256 ∧ 14 < r))

/-- The condition of each error of a command (R254 to R258); ENC, which takes either variant, adds none to those of its
slot. -/
def CommandError (s : State) : Instr → Status → Prop
  | .nop => fun _ => False
  | .idread => fun _ => False
  | .clmul => fun _ => False
  | .aesenc => fun _ => False
  | .aesenclast => fun _ => False
  | .keyexp128 n => LoadableError s n
  | .keyexp256 n => LoadableError s n
  | .rkread n r => ScheduleError s n (IndexError r)
  | .enc n => ScheduleError s n fun _ _ => False
  | .crhash n => ScheduleError s n HashError
  | .ccrhash n => ScheduleError s n HashError
  | .tccrhash n => ScheduleError s n HashError

/-! ## Each check reports the first of its conditions -/

theorem withLoadable_reports (s : State) (n : Nat) {e : Effect} (he : e.status = .ok) :
    Reports (LoadableError s n) (withLoadable s n e) := by
  rcases withLoadable_cases s n e with ⟨hn, h⟩ | ⟨h0, h⟩ | ⟨h0, hn, h⟩ <;> rw [h]
  · refine reports_raise (.inl ⟨rfl, hn⟩) ?_
    rintro _ (⟨rfl, _⟩ | ⟨rfl, _⟩) <;> decide
  · refine reports_raise (.inr ⟨rfl, h0⟩) ?_
    rintro _ (⟨rfl, hn⟩ | ⟨rfl, _⟩)
    · exact absurd (nks_pos s) (by omega)
    · exact le_rfl
  · refine reports_ok he ?_
    rintro _ (⟨_, h⟩ | ⟨_, h⟩)
    · omega
    · exact h0 h

/-- The further conditions of what reads a schedule come after those of the slot. -/
theorem withSchedule_reports (s : State) (n : Nat) {f : Slot → Effect} {further : Slot → Status → Prop}
    (hlast : ∀ k st, further k st → Status.slotEmpty.priority ≤ st.priority)
    (hf : ∀ k : Slot, k.tag ≠ .empty → Reports (further k) (f k)) :
    Reports (ScheduleError s n further) (withSchedule s n f) := by
  rcases withSchedule_cases s n f with ⟨hn, h⟩ | ⟨hn, htag, h⟩ | ⟨hn, htag, h⟩ <;> rw [h]
  · refine reports_raise (.inl ⟨rfl, hn⟩) ?_
    rintro _ (⟨rfl, _⟩ | ⟨rfl, _⟩ | h)
    · exact le_rfl
    · decide
    · exact le_trans (by decide) (hlast _ _ h)
  · refine reports_raise (.inr (.inl ⟨rfl, htag⟩)) ?_
    rintro _ (⟨_, h⟩ | ⟨rfl, _⟩ | h)
    · omega
    · exact le_rfl
    · exact hlast _ _ h
  · refine (hf _ htag).congr fun st => ⟨?_, fun h => .inr (.inr h)⟩
    rintro (⟨_, h⟩ | ⟨_, h⟩ | h)
    · omega
    · exact absurd h htag
    · exact h

theorem readKey_reports {k : Slot} (r : Nat) (htag : k.tag ≠ .empty) : Reports (IndexError r k) (readKey k r) := by
  have hbeyond : ((k.tag = .aes128 ∧ 10 < r) ∨ (k.tag = .aes256 ∧ 14 < r)) ↔ lastIndex k.tag < r := by
    cases h : k.tag with
    | empty => exact absurd h htag
    | aes128 => simp [lastIndex]
    | aes256 => simp [lastIndex]
  rcases readKey_cases k r with ⟨hr, h⟩ | ⟨hr, h⟩ <;> rw [h]
  · exact reports_raise ⟨rfl, hbeyond.mpr hr⟩ fun _ ⟨hst, _⟩ => by rw [hst]
  · exact reports_ok rfl fun _ ⟨_, h⟩ => absurd (hbeyond.mp h) (Nat.not_lt.mpr hr)

theorem withSchedule128_reports (s : State) (n : Nat) {f : Vector Block 11 → Effect}
    (hf : ∀ rk, (f rk).status = .ok) : Reports (ScheduleError s n HashError) (withSchedule128 s n f) := by
  refine withSchedule_reports s n (by rintro _ _ ⟨rfl, _⟩; decide) fun k htag => ?_
  cases h : k.tag with
  | empty => exact absurd h htag
  | aes128 => exact reports_ok (hf _) fun _ ⟨_, h256⟩ => by cases h.symm.trans h256
  | aes256 => exact reports_raise ⟨rfl, h⟩ fun _ ⟨hst, _⟩ => by rw [hst]

/-- Every command's rule reports the first of the command's conditions. -/
theorem ruleOf_reports (i : Instr) (s : State) (c : Command) : Reports (CommandError s i) (ruleOf i s c) := by
  cases i with
  | nop | idread | clmul | aesenc | aesenclast => exact reports_ok rfl fun _ => id
  | keyexp128 n | keyexp256 n => exact withLoadable_reports s n rfl
  | rkread n r =>
    exact withSchedule_reports s n (by rintro _ _ ⟨rfl, _⟩; decide) fun _ htag => readKey_reports r htag
  | enc n =>
    exact withSchedule_reports s n (fun _ _ h => h.elim) fun _ htag =>
      reports_ok (encryptSlot_status c.a htag) fun _ => id
  | crhash n | ccrhash n | tccrhash n => exact withSchedule128_reports s n fun _ => rfl

/-! ## The statuses a command can return -/

/-- A command meets only the conditions of errors that R260 allows it. -/
theorem CommandError.possible {s : State} {i : Instr} {st : Status} (h : CommandError s i st) :
    st ∈ possibleStatus i := by
  cases i with
  | nop | idread | clmul | aesenc | aesenclast => exact h.elim
  | keyexp128 n | keyexp256 n => rcases h with ⟨rfl, _⟩ | ⟨rfl, _⟩ <;> simp [possibleStatus]
  | rkread n r => rcases h with ⟨rfl, _⟩ | ⟨rfl, _⟩ | ⟨rfl, _⟩ <;> simp [possibleStatus]
  | enc n =>
    rcases h with ⟨rfl, _⟩ | ⟨rfl, _⟩ | h
    · simp [possibleStatus]
    · simp [possibleStatus]
    · exact h.elim
  | crhash n | ccrhash n | tccrhash n =>
    rcases h with ⟨rfl, _⟩ | ⟨rfl, _⟩ | ⟨rfl, _⟩ <;> simp [possibleStatus]

theorem ok_mem_possibleStatus (i : Instr) : Status.ok ∈ possibleStatus i := by
  cases i <;> exact List.mem_cons_self

/-- A command completes with OK or with an error that R260 allows it. -/
theorem ruleOf_status_possible (i : Instr) (s : State) (c : Command) : (ruleOf i s c).status ∈ possibleStatus i := by
  rcases ruleOf_reports i s c with ⟨h, _⟩ | ⟨st, h, hst, _⟩ <;> rw [h]
  · exact ok_mem_possibleStatus i
  · exact hst.possible

/-- Only a SLOT beyond the file meets the condition of ERR_SLOT_RANGE (R255). -/
theorem CommandError.slotRange {s : State} {i : Instr} (h : CommandError s i .slotRange) : s.nks ≤ i.slotOf := by
  cases i <;> simp [CommandError, LoadableError, ScheduleError, IndexError, HashError] at h <;> exact h

/-! ## The conditions read from the command word -/

/-- Of a word that is a command, the conditions of the errors are those of the command: the two tables agree entry by
entry. -/
theorem errorHolds_iff_commandError {w : Word32} {i : Instr} (hd : decodeWord w = .ok i) (s : State) (st : Status) :
    ErrorHolds s w st ↔ CommandError s i st := by
  rcases decodeWord_cases w with ⟨_, he⟩ | ⟨_, _, he⟩ | ⟨hlegal, hres, j, hj, hop, hslot, hidx⟩
  · cases he.symm.trans hd
  · cases he.symm.trans hd
  obtain rfl := Except.ok.inj (hj.symm.trans hd)
  have hnotWord : ¬ CommandError s j .illegalOpcode ∧ ¬ CommandError s j .reservedField := by
    cases j <;> simp [CommandError, LoadableError, ScheduleError, IndexError, HashError]
  cases st with
  | illegalOpcode => exact iff_of_false (fun h => h hlegal) hnotWord.1
  | reservedField => exact iff_of_false (fun h => hres h.2) hnotWord.2
  | _ =>
    cases j <;>
      simp [ErrorHolds, CommandError, LoadableError, ScheduleError, IndexError, HashError, ← hop, ← hslot, ← hidx,
        Instr.opcode, Instr.slotOf, Instr.idxOf]

/-- An accepted word, a command or not, is answered with the first of its errors (R259). -/
theorem effectOfWord_reports (s : State) (c : Command) : Reports (ErrorHolds s c.cmd) (effectOfWord s c) := by
  rcases decodeWord_cases c.cmd with ⟨hillegal, hd⟩ | ⟨hlegal, hres, hd⟩ | ⟨_, _, i, hd, _⟩ <;>
    simp only [effectOfWord, hd]
  · exact reports_raise (st := .illegalOpcode) hillegal fun st _ => by cases st <;> decide
  · refine reports_raise (st := .reservedField) ⟨hlegal, hres⟩ fun st h => ?_
    cases st with
    | illegalOpcode => exact absurd hlegal h
    | _ => decide
  · exact (ruleOf_reports i s c).congr (errorHolds_iff_commandError hd s)

/-! ## The step that accepts a word -/

theorem accept_resetLine {s s' : State} {t : Txn} (h : s.accept = some (t, s')) : s'.resetLine = s.resetLine := by
  obtain ⟨k, c, rest, _, rfl, rfl⟩ := accept_some h
  exact accepting_resetLine s k c rest

/-- Accepting a command changes nothing that a condition reads. -/
theorem errorHolds_of_accept {s s' : State} {t : Txn} (h : s.accept = some (t, s')) (w : Word32) (st : Status) :
    ErrorHolds s w st ↔ ErrorHolds s' w st := by
  obtain ⟨k, c, rest, _, rfl, rfl⟩ := accept_some h
  exact Iff.rfl

/-- A word that is no command is answered with the error of the decoding check that failed (R87, R88). -/
theorem step_rejects {s s' : State} {t : Txn} {e : DecodeError} (hr : s.resetLine = .released)
    (ha : s.accept = some (t, s')) (hd : decodeWord t.command.cmd = .error e) :
    Completes s' t (step s) (errorOfWord e) 0 0 := by
  have hs : step s = rejectWord e s' := by simp [step, hr, ha, hd]
  rw [hs]
  exact completes_of_effect (step_of_accept hr ha).1 rfl (raise_write _)

/-- The response a step leaves is read by no later step: a reset, an acceptance and an idle port all clear it (R28). -/
theorem step_with_response (s : State) (x : Option Response) : step { s with response := x } = step s := rfl

theorem step_answers (s : State) : Answers (step s) := by
  rcases step_cases s with ⟨_, h⟩ | ⟨_, h⟩ | ⟨_, _, h⟩ | ⟨_, _, _, _, _, h⟩ <;> exact ⟨_, h⟩

/-! ## Checks that refuse -/

theorem withSlot_beyond {s : State} {n : Nat} (h : s.nks ≤ n) (e : Effect) : withSlot s n e = raise .slotRange :=
  if_pos h

theorem withSchedule_empty {s : State} {n : Nat} (hn : n < s.nks) (htag : (s.slot n).tag = .empty)
    (f : Slot → Effect) : withSchedule s n f = raise .slotEmpty := by
  rw [withSchedule, withSlot, if_neg (by omega), if_pos htag]

theorem withSchedule128_aes256 {s : State} {n : Nat} (hn : n < s.nks) (htag : (s.slot n).tag = .aes256)
    (f : Vector Block 11 → Effect) : withSchedule128 s n f = raise .slotVariant := by
  rw [withSchedule128, withSchedule_pass hn (by simp [htag]), if_neg (by simp [htag])]

theorem readKey_beyond {e : Slot} {r : Nat} (h : lastIndex e.tag < r) : readKey e r = raise .indexRange := if_pos h

/-- A command whose rule is a refused check completes with that error. -/
theorem exec_raises (i : Instr) {s : State} {t : Txn} {st : Status} (h : s.txn = some t)
    (he : ruleOf i s t.command = raise st) : Completes s t (exec i s) st 0 0 := exec_completes i h he (raise_write st)

end Sys2Proof.Machine
end

section
/-! The statements about errors (60_exceptions.md). -/

namespace Sys2Proof.Machine

/-- Settles O5: the decoder finds no row for the OP, whatever the other fields are. -/
theorem illegalOpcodeIsAnswered : Obligations.IllegalOpcodeIsAnswered := by
  intro s s' t hr ha hillegal
  rcases decodeWord_cases t.command.cmd with ⟨_, hd⟩ | ⟨hlegal, _⟩ | ⟨hlegal, _⟩
  · exact step_rejects hr ha hd
  · exact absurd hlegal hillegal
  · exact absurd hlegal hillegal

/-- Settles O6: with a legal OP the decoder's remaining checks are R253's condition. -/
theorem reservedFieldIsAnswered : Obligations.ReservedFieldIsAnswered := by
  intro s s' t hr ha hlegal
  rcases decodeWord_cases t.command.cmd with ⟨hillegal, _⟩ | ⟨_, hres, hd⟩ | ⟨_, hres, i, hd, _⟩
  · exact absurd hlegal hillegal
  · exact ⟨fun _ => step_rejects hr ha hd, fun h => absurd hres h⟩
  · exact ⟨fun h => absurd h hres, fun _ => ⟨i, hd⟩⟩

/-- Settles O10: a step that accepts a command completes it, which leaves the reset input as it was. -/
theorem noCommandHangsTheBlock : Obligations.NoCommandHangsTheBlock :=
  ⟨step_answers, fun _ _ _ hr ha => ⟨_, _, (step_of_accept hr ha).2, rfl, rfl, rfl,
    (finish_resetLine _ _ _).trans ((accept_resetLine ha).trans hr)⟩⟩

/-- Settles O12: what is answered with an error was raised, so it writes no slot, and no step reads the response. -/
theorem errorsChangeNothing : Obligations.ErrorsChangeNothing := by
  intro s s' u t r hr ha h hresp hst
  obtain rfl := Host.Outcome.next.inj ((step_of_accept hr ha).2.symm.trans h)
  obtain rfl := Option.some.inj hresp
  rcases effectOfWord_reports s' t.command with ⟨hok, _⟩ | ⟨st, he, _⟩
  · exact absurd hok hst
  · rw [he]
    exact ⟨rfl, rfl, rfl, fun other => step_with_response _ other⟩

/-- Settles O13: a rule reports one of the command's own conditions, each of them an error of its row in R260. -/
theorem statusIsOneTheCommandCanReturn : Obligations.StatusIsOneTheCommandCanReturn := by
  refine ⟨fun s s' u t hr ha h => ?_, rfl, fun st => by cases st <;> decide⟩
  obtain rfl := Host.Outcome.next.inj ((step_of_accept hr ha).2.symm.trans h)
  refine ⟨_, rfl, ?_⟩
  cases hd : decodeWord t.command.cmd with
  | ok i =>
    simp only [effectOfWord, hd]
    exact ruleOf_status_possible i s' t.command
  | error e => cases e <;> simp only [effectOfWord, hd] <;> rfl

/-- Settles O14: the effect of the accepted word reports the first of its errors. -/
theorem firstErrorInPriorityIsReported : Obligations.FirstErrorInPriorityIsReported := by
  refine ⟨fun s s' u t hr ha h => ?_, fun s w => ⟨?_, ?_⟩, rfl⟩
  · obtain rfl := Host.Outcome.next.inj ((step_of_accept hr ha).2.symm.trans h)
    refine ⟨_, rfl, ?_⟩
    rcases (effectOfWord_reports s' t.command).congr (errorHolds_of_accept ha _) with hok | ⟨st, he, hfirst⟩
    · exact .inl hok
    · rw [he]
      exact .inr hfirst
  · rintro ⟨⟨_, hrange⟩, _, hzero⟩
    exact absurd (nks_pos s) (by omega)
  · rintro ⟨⟨_, hempty⟩, _, h256⟩
    cases hempty.symm.trans h256

/-- Settles O48: every check of a SLOT operand begins with the range, and a 4-bit SLOT is below 16. -/
theorem slotRangeIsAnswered : Obligations.SlotRangeIsAnswered := by
  refine ⟨fun s t n i ht hn hi => ?_, fun s u t i r ht h16 hwf h hresp hst => ?_⟩
  · rcases hi with rfl | rfl | ⟨r, rfl⟩ | rfl | rfl | rfl | rfl <;> exact exec_raises _ ht (withSlot_beyond hn _)
  · obtain rfl := Host.Outcome.next.inj ((exec_some i ht).symm.trans h)
    obtain rfl := Option.some.inj hresp
    have hfits := (wellFormed_iff.mp hwf).1
    rcases ruleOf_reports i s t.command with ⟨hok, _⟩ | ⟨st, he, herr, _⟩
    · cases hok.symm.trans hst
    · obtain rfl : st = .slotRange := (congrArg Effect.status he).symm.trans hst
      have := herr.slotRange
      omega

/-- Settles O49: the check of a written SLOT refuses 0, and slot 0 is computed from FIXED_RK. -/
theorem slotZeroIsReadOnly : Obligations.SlotZeroIsReadOnly := by
  intro s t i ht hi
  refine ⟨?_, fun u h => ?_⟩
  · rcases hi with rfl | rfl <;> exact exec_raises _ ht (withLoadable_zero s _)
  · obtain rfl := Host.Outcome.next.inj ((exec_some i ht).symm.trans h)
    have hslot : (s.finish t (ruleOf i s t.command)).slot 0 = s.slot 0 := by rw [slot_zero, slot_zero, finish_fixedRk]
    rw [hslot]
    exact ⟨rfl, (slot_zero_contents s).2.1⟩

/-- Settles O50: the check of a read SLOT refuses an EMPTY slot of the file, and slot 0 has the tag AES128. -/
theorem emptySlotIsAnswered : Obligations.EmptySlotIsAnswered := by
  refine ⟨fun s t n i ht hn htag hi => ?_, fun s => ?_⟩
  · rcases hi with ⟨r, rfl⟩ | rfl | rfl | rfl | rfl <;>
      exact exec_raises _ ht (by simp only [ruleOf, withSchedule128, withSchedule_empty hn htag])
  · rw [(slot_zero_contents s).1]
    decide

/-- Settles O51: the check of a hash command's SLOT refuses the tag AES256. -/
theorem slotVariantIsAnswered : Obligations.SlotVariantIsAnswered := by
  intro s t n i ht hn htag hi
  rcases hi with rfl | rfl | rfl <;> exact exec_raises _ ht (by simp only [ruleOf, withSchedule128_aes256 hn htag])

/-- Settles O52: the slot is loaded, so its check passes, and the index is beyond the last of its schedule. -/
theorem indexRangeIsAnswered : Obligations.IndexRangeIsAnswered := by
  intro s t n r ht hn hidx
  have hbeyond : (s.slot n).tag ≠ .empty ∧ lastIndex (s.slot n).tag < r := by
    rcases hidx with ⟨htag, hr⟩ | ⟨htag, hr⟩ <;> rw [htag] <;> exact ⟨by decide, hr⟩
  obtain ⟨htag, hr⟩ := hbeyond
  exact exec_raises (.rkread n r) ht (by rw [ruleOf, withSchedule_pass hn htag, readKey_beyond hr])

end Sys2Proof.Machine
end

section
/-! SUPPORT. What the proofs about resets and hazards (70_reset_and_hazards.md) need: what a command's outcome and its
latency depend on, what a reset leaves of the slots and the queues, and when a command that reads slots completes. -/

namespace Sys2Proof.Machine

/-! ## What the tags of the slots decide -/

@[simp] theorem tags_length (s : State) : s.tags.length = s.nks := by simp [State.tags]

/-- The tag of a slot is its place in the list of all tags; a number beyond the file reads EMPTY. -/
theorem slot_tag_eq_tags_getD (s : State) (n : Nat) : (s.slot n).tag = s.tags.getD n .empty := by
  by_cases hn : n < s.nks
  · simp [State.tags, hn]
  · rw [slot_out_of_range (Nat.le_of_not_lt hn), List.getD_eq_default _ _ (by simpa using hn)]
    rfl

theorem nks_of_tags_eq {s s' : State} (h : s.tags = s'.tags) : s.nks = s'.nks := by
  rw [← tags_length, h, tags_length]

theorem slot_tag_of_tags_eq {s s' : State} (h : s.tags = s'.tags) (n : Nat) : (s.slot n).tag = (s'.slot n).tag := by
  rw [slot_tag_eq_tags_getD, h, ← slot_tag_eq_tags_getD]

/-- The condition of every error reads nothing of the slot file but its tags (R252 to R258). -/
theorem errorHolds_of_tags_eq {s s' : State} (h : s.tags = s'.tags) (w : Word32) (st : Status) :
    ErrorHolds s w st ↔ ErrorHolds s' w st := by
  cases st <;> simp only [ErrorHolds, nks_of_tags_eq h, slot_tag_of_tags_eq h]

/-- No two statuses share a place in the priority order (R259). -/
theorem priority_injective : Function.Injective Status.priority :=
  Function.LeftInverse.injective
    (g := fun p => [Status.illegalOpcode, .reservedField, .slotRange, .slotReadonly, .slotEmpty, .slotVariant,
      .indexRange, .ok].getD (p - 1) .ok)
    fun st => by cases st <;> rfl

/-- The conditions that hold decide the status that is reported. -/
theorem Reports.status_eq {holds : Status → Prop} {e e' : Effect} (h : Reports holds e) (h' : Reports holds e') :
    e.status = e'.status := by
  rcases h with ⟨hok, hnone⟩ | ⟨st, rfl, hst, hfirst⟩ <;> rcases h' with ⟨hok', hnone'⟩ | ⟨st', rfl, hst', hfirst'⟩
  · rw [hok, hok']
  · exact absurd hst' (hnone st')
  · exact absurd hst (hnone' st)
  · exact priority_injective (le_antisymm (hfirst st' hst') (hfirst' st hst))

/-! ## Latency -/

/-- LAT of one command word and status reads nothing of the slot file but its tags (R291). -/
theorem latencyOf_of_tags_eq {s s' : State} (h : s.tags = s'.tags) (w : Word32) (st : Status) :
    s.latencyOf w st = s'.latencyOf w st := by
  cases st <;> simp only [State.latencyOf, slot_tag_of_tags_eq h, h]

/-- LAT of a command that completes with OK depends on OP and the tag of the named slot (R290, R291). -/
theorem latencyOf_ok_congr {s s' : State} {w w' : Word32} (hop : opField w = opField w')
    (htag : (s.slot (slotField w)).tag = (s'.slot (slotField w')).tag) : s.latencyOf w .ok = s'.latencyOf w' .ok := by
  simp only [State.latencyOf, hop, htag]

/-- A step that accepts a word answers the first of its errors and takes LAT of the status it answers. -/
theorem step_reports {s s' u : State} {t : Txn} (hr : s.resetLine = .released) (ha : s.accept = some (t, s'))
    (h : step s = .next u) : ∃ e, Reports (ErrorHolds s t.command.cmd) e ∧
      u.response = some ⟨t.requester, e.status, e.r0, e.r1⟩ ∧
      u.busyCycles = s.busyCycles + s.latencyOf t.command.cmd e.status := by
  obtain rfl := Host.Outcome.next.inj ((step_of_accept hr ha).2.symm.trans h)
  refine ⟨_, (effectOfWord_reports s' t.command).congr (errorHolds_of_accept ha _), rfl, ?_⟩
  obtain ⟨k, c, rest, _, rfl, rfl⟩ := accept_some ha
  rfl

/-- IDR bit F_CT reads 1, whatever NKS is (R27). -/
theorem idr_f_ct (s : State) : s.idr.getLsbD 14 = true := by
  have hct : idrFeatures.getLsbD 14 = true := rfl
  simp [State.idr, hct]

/-! ## Resets -/

/-- A reset during a command is the reset event of the state in which the command has left its queue (R281). -/
theorem step_duringCommand {s s' : State} {t : Txn} (hr : s.resetLine = .duringCommand)
    (ha : s.accept = some (t, s')) : step s = .next s'.resetEvent := by
  simp [step, hr, State.abandonAndReset, ha]

/-- A step with the reset input asserted, of either kind, ends in the reset event (R280, R281). -/
theorem step_of_reset {s u : State} (hr : s.resetLine = .betweenCommands ∨ s.resetLine = .duringCommand)
    (h : step s = .next u) : ∃ s' : State, u = s'.resetEvent := by
  rcases hr with hr | hr
  · exact ⟨s, Host.Outcome.next.inj (h.symm.trans (step_betweenCommands hr))⟩
  · have hu : u = s.abandonAndReset := Host.Outcome.next.inj (h.symm.trans (by simp [step, hr]))
    rcases abandonAndReset_cases s with he | ⟨k, c, rest, he⟩
    · exact ⟨s, hu.trans he⟩
    · exact ⟨_, hu.trans he⟩

/-! ## Commands on slot 0 -/

/-- A command that writes no slot and meets no condition of an error completes with OK. -/
theorem exec_completes_ok {i : Instr} {s : State} {t : Txn} (ht : s.txn = some t) (hi : writesSlot i = false)
    (hno : ∀ st, ¬ CommandError s i st) : ∃ r0 r1, Completes s t (exec i s) .ok r0 r1 := by
  have hdone := exec_completes i ht rfl (ruleOf_write_of_reader hi s t.command)
  rcases ruleOf_reports i s t.command with ⟨hok, _⟩ | ⟨st, _, hst, _⟩
  · exact ⟨_, _, hok ▸ hdone⟩
  · exact absurd hst (hno st)

/-- Slot 0 is in every file and never EMPTY, so a command that reads it meets only its own further conditions. -/
theorem scheduleError_zero {s : State} {further : Slot → Status → Prop} {st : Status}
    (h : ScheduleError s 0 further st) : further (s.slot 0) st := by
  rcases h with ⟨_, hrange⟩ | ⟨_, hempty⟩ | hfurther
  · exact absurd (nks_pos s) (by omega)
  · cases hempty
  · exact hfurther

/-- Slot 0 holds an AES-128 schedule, which the hash commands take (R257). -/
theorem not_hashError_slot_zero (s : State) (st : Status) : ¬ HashError (s.slot 0) st := by
  rintro ⟨_, h256⟩
  cases h256

/-- Slot 0 holds the round keys 0 to 10 (R258). -/
theorem not_indexError_slot_zero (s : State) {r : Nat} (hr : r ≤ 10) (st : Status) :
    ¬ IndexError r (s.slot 0) st := by
  rintro ⟨_, ⟨_, hbeyond⟩ | ⟨h256, _⟩⟩
  · omega
  · cases h256

/-- A command that writes no slot, names slot 0 or none, and reads within that slot's schedule meets no condition of an
error, whatever the loadable slots hold. -/
theorem not_commandError_slot_zero {i : Instr} (hreader : writesSlot i = false) (hslot : i.slotOf = 0)
    (hidx : i.idxOf ≤ 10) (s : State) (st : Status) : ¬ CommandError s i st := by
  cases i with
  | nop | idread | clmul | aesenc | aesenclast => exact id
  | keyexp128 n | keyexp256 n => cases hreader
  | rkread n r =>
    obtain rfl : n = 0 := hslot
    exact fun h => not_indexError_slot_zero s hidx st (scheduleError_zero h)
  | enc n =>
    obtain rfl : n = 0 := hslot
    exact scheduleError_zero (further := fun _ _ => False)
  | crhash n | ccrhash n | tccrhash n =>
    obtain rfl : n = 0 := hslot
    exact fun h => not_hashError_slot_zero s st (scheduleError_zero h)

end Sys2Proof.Machine
end

section
/-! The statements about resets and hazards (70_reset_and_hazards.md). -/

namespace Sys2Proof.Machine

/-- Settles O18: the word and the tags decide which error is reported, and LAT reads only these of the state. -/
theorem latencyIsIndependentOfData : Obligations.LatencyIsIndependentOfData := by
  intro s₁ s₂ s₁' s₂' u₁ u₂ t₁ t₂ hr₁ hr₂ ha₁ ha₂ h₁ h₂
  obtain ⟨e₁, hrep₁, hresp₁, hbusy₁⟩ := step_reports hr₁ ha₁ h₁
  obtain ⟨e₂, hrep₂, hresp₂, hbusy₂⟩ := step_reports hr₂ ha₂ h₂
  refine ⟨fun hcmd htags => ⟨_, hbusy₁, ?_⟩, fun r₁ r₂ hu₁ hu₂ hok₁ hok₂ hop htag => ⟨_, hbusy₁, ?_⟩, idr_f_ct s₁⟩
  · have hst : e₁.status = e₂.status := by
      refine hrep₁.status_eq (hrep₂.congr fun st => ?_)
      rw [hcmd]
      exact errorHolds_of_tags_eq htags _ st
    rw [hbusy₂, hcmd, hst, latencyOf_of_tags_eq htags]
  · obtain rfl := Option.some.inj (hresp₁.symm.trans hu₁)
    obtain rfl := Option.some.inj (hresp₂.symm.trans hu₂)
    have hst₁ : e₁.status = .ok := hok₁
    have hst₂ : e₂.status = .ok := hok₂
    rw [hbusy₂, hst₁, hst₂, latencyOf_ok_congr hop htag]

/-- Settles O25: the step is the reset event of the state in which the command has been accepted, so the command is gone
from its queue and nothing answers it. -/
theorem resetDuringACommandAbandonsIt : Obligations.ResetDuringACommandAbandonsIt := by
  intro s s' t hr ha
  have hs : step s = .next s'.resetEvent := step_duringCommand hr ha
  refine ⟨_, hs, rfl, rfl, step_slot_zero hs, fun n h1 _ => ?_, step_nks hs, step_idr hs, ?_⟩
  · rw [slot_resetEvent s' (by omega)]
    exact ⟨rfl, fun r _ => key_emptySlot r⟩
  · obtain ⟨k, c, rest, hq, rfl, rfl⟩ := accept_some ha
    rw [queue_congr (resetEvent_requesters _), queue_accepting_same hq]
    exact hq

/-- Settles O26: a reset leaves slot 0 loaded and every other slot EMPTY, and these are all that the commands' checks
read. -/
theorem afterResetSlotZeroIsReady : Obligations.AfterResetSlotZeroIsReady := by
  intro s u t i hr h v
  refine ⟨fun hi => ?_, fun n h1 hn hi => ?_⟩
  · have hzero : writesSlot i = false ∧ i.slotOf = 0 ∧ i.idxOf ≤ 10 := by
      rcases hi with hi | ⟨r, hr, rfl⟩
      · revert i
        decide
      · exact ⟨rfl, rfl, hr⟩
    obtain ⟨hreader, hslot, hidx⟩ := hzero
    exact exec_completes_ok rfl hreader (not_commandError_slot_zero hreader hslot hidx v)
  · have hnks : n < v.nks := (step_nks h).symm ▸ hn
    have hempty : v.slot n = Slot.emptySlot := by
      obtain ⟨s', rfl⟩ := step_of_reset hr h
      exact (slot_congr rfl rfl n).trans (slot_resetEvent s' (by omega))
    exact emptySlotIsAnswered.1 v t n i rfl hnks (congrArg Slot.tag hempty) hi

end Sys2Proof.Machine
end
